-- ==== Sys2Proof/Word.lean ====
section
/-!
DEFINITION. The word types of the block (spec/00_scope.md R7, R10): every value is an unsigned bit vector, bit 0 its least
significant bit, and `+`, `*`, `^^^`, `|||`, `<<<`, `>>>` on `BitVec` are the wrapping and logical operations of
spec/40_arithmetic.md R91 to R96 (checked against the rules' own words in Laws/Arithmetic.lean).
-/

namespace Sys2Proof

/-- `U64`: a seed, a state word, a result (R7, R90). -/
abbrev Word := BitVec 64

/-- `U32`: a word of the auxiliary slot (R7, R25). -/
abbrev HalfWord := BitVec 32

/-- The opcode field of a command (`OPW = 4`, R9, R61). -/
abbrev Opcode := BitVec 4

/-- A command word `CW[67:0]` (R61). -/
abbrev CommandWord := BitVec 68

/-- The status field of a response (R64). -/
abbrev StatusCode := BitVec 2

/-- A response word `RW[65:0]` (R64). -/
abbrev ResponseWord := BitVec 66

end Sys2Proof
end

