-- ==== Sys2Proof/Syntax.lean ====
section
/-!
DEFINITION. The block's commands: one constructor for each row of spec/opcode_table.json (spec/30_encoding.md R60, R62).
-/

namespace Sys2Proof

/-- The five named operations of R60. Only `initialize` has an operand; the others take none, and the `data` field of their
words is ignored (R63), so it is no part of the instruction. A reserved opcode names no operation (R66) and has no
constructor. -/
inductive Instr where
  /-- `initialize seed`, opcode `0x0` (spec/41_seed_expander.md R114). -/
  | initializeWith (seed : Word)
  /-- `next_u64`, opcode `0x1` (spec/42_generator_core.md R134). -/
  | nextU64
  /-- `next_u32`, opcode `0x2` (spec/43_declared_unimplemented.md R160). -/
  | nextU32
  /-- `next_f32`, opcode `0x3` (R161). -/
  | nextF32
  /-- `next_f64`, opcode `0x4` (R162). -/
  | nextF64
  deriving DecidableEq, Repr

end Sys2Proof
end

