-- ==== Sys2Proof/WellFormed.lean ====
section
/-!
DEFINITION. Which terms stand for commands. An instruction needs no check: "every 64-bit input is valid"
(spec/30_encoding.md R63, R67). The checks are on numbers that are to become a field: a seed has 64 bits and a command word
68 (R61, R69).
-/

namespace Sys2Proof

/-- Every instruction is well formed: its one operand is 64 bits wide by its type, and no value of it is illegal (R63). -/
def Instr.wellFormed : Instr → Bool
  | .initializeWith _ => true
  | .nextU64 => true
  | .nextU32 => true
  | .nextF32 => true
  | .nextF64 => true

/-- The number fits the `data` field, so that it can be a seed; "A seed literal that does not fit 64 bits is an assembler
error, not a truncation" (R69). -/
def seedFits (n : Nat) : Bool := n < 2 ^ 64

/-- The number fits the 68 bits of a command word (R61). -/
def commandFits (n : Nat) : Bool := n < 2 ^ 68

end Sys2Proof
end

