-- ==== Sys2Proof/Decode.lean ====
section
/-!
DEFINITION. The decoder and the encoder of spec/30_encoding.md R61 to R68: one format of 68 bits, `CW[67:64]` the opcode
and `CW[63:0]` the data field.
-/

namespace Sys2Proof

/-- `CW[67:64]` (R61). -/
def opcodeField (cw : CommandWord) : Opcode := cw.extractLsb' 64 4

/-- `CW[63:0]` (R61). -/
def dataField (cw : CommandWord) : Word := cw.extractLsb' 0 64

/-- The command word with the given fields, the opcode in the high bits (R61). -/
def commandWord (op : Opcode) (data : Word) : CommandWord := (op ++ data : BitVec (4 + 64))

/-- Why a word is no instruction. -/
inductive DecodeError where
  /-- The opcode is one of `0x5` to `0xF`, which name no operation (R66). -/
  | reservedOpcode (op : Opcode)
  deriving DecidableEq, Repr

/-- Decoding looks at the top four bits alone and is total on all 2^68 words (R68). -/
def decode (cw : CommandWord) : Except DecodeError Instr :=
  match (opcodeField cw).toNat with
  | 0 => .ok (.initializeWith (dataField cw))
  | 1 => .ok .nextU64
  | 2 => .ok .nextU32
  | 3 => .ok .nextF32
  | 4 => .ok .nextF64
  | _ => .error (.reservedOpcode (opcodeField cw))

/-- The opcode of each operation (R62). -/
def Instr.opcode : Instr → Opcode
  | .initializeWith _ => 0x0#4
  | .nextU64 => 0x1#4
  | .nextU32 => 0x2#4
  | .nextF32 => 0x3#4
  | .nextF64 => 0x4#4

/-- The data field of the canonical word: the seed of `initialize`, zero for the operations that take no operand
(R63, R69). -/
def Instr.data : Instr → Word
  | .initializeWith seed => seed
  | .nextU64 => 0
  | .nextU32 => 0
  | .nextF32 => 0
  | .nextF64 => 0

/-- The canonical command word of an instruction (R61, R69). -/
def encode (i : Instr) : CommandWord := commandWord i.opcode i.data

/-- A row of the opcode table: a word is the row's when its bits under the mask are the match (R68). -/
structure OpcodeRow where
  mask : CommandWord
  pattern : CommandWord
  deriving DecidableEq, Repr

/-- The word is one of the row's. -/
def OpcodeRow.accepts (r : OpcodeRow) (cw : CommandWord) : Bool := cw &&& r.mask == r.pattern

/-- "The mask of every row of `opcode_table.json` is `0xF0000000000000000` (the four opcode bits) and its match is the
opcode in those bits" (R68). -/
def opcodeRow (op : Opcode) : OpcodeRow := ⟨0xF0000000000000000#68, commandWord op 0⟩

/-- The five rows, in the table's order (R62). -/
def opcodeRows : List OpcodeRow :=
  [opcodeRow 0x0#4, opcodeRow 0x1#4, opcodeRow 0x2#4, opcodeRow 0x3#4, opcodeRow 0x4#4]

/-- The command word whose bits are those of `w`, bit `i` of `w` being `CW[i]`; none if `w` has a bit above the 68 a command
has (log entry 15). -/
def tableCommandWord (w : Nat) : Option CommandWord :=
  if commandFits w then some (BitVec.ofNat 68 w) else none

/-- The instruction the decoder reads from the word numbered as spec/opcode_table.json numbers it. A command is moved whole
on parallel wires (spec/20_memory.md R42, R43), so there are no bytes to lay out and the length plays no part. -/
def decodeTableWord (_nbits w : Nat) : Option Instr :=
  match tableCommandWord w with
  | none => none
  | some cw =>
    match decode cw with
    | .ok i => some i
    | .error _ => none

end Sys2Proof
end

