-- ==== Sys2Proof/Config.lean ====
section
/-!
DEFINITION. What an implementation of the block fixes and the spec leaves open (spec/00_scope.md R9): the two latencies of
spec/70_reset_and_hazards.md R212. `S_RESET` and `A_RESET`, which may differ from reset to reset, come with the inputs
(Machine/State.lean, `Edge`). The constants of R8 are in Machine/Operands.lean.
-/

namespace Sys2Proof

/-- The open parameters `LAT_INIT` and `LAT_NEXT` (R212), each held as the number of cycles beyond 1, so that "at least 1"
holds of every value. They are arguments of the launch: State carries them and no step changes them. -/
structure Latencies where
  initExtra : Nat
  nextExtra : Nat
  deriving DecidableEq, Repr

namespace Latencies

/-- `LAT_INIT`: cycles from the transfer of an `initialize` to its response (R212). -/
def latInit (l : Latencies) : Nat := l.initExtra + 1

/-- `LAT_NEXT`: the same for every other command (R212). -/
def latNext (l : Latencies) : Nat := l.nextExtra + 1

end Latencies

end Sys2Proof
end

