-- ==== Sys2Proof/Machine/State.lean ====
section
/-!
DEFINITION. The state of the block: the two pieces of architectural state of spec/10_state.md R20, the handshake of
spec/70_reset_and_hazards.md R200 and R209, the launch arguments, and what the input pins show at the coming clock edges.
-/

namespace Sys2Proof.Machine

/-- The Generator State: "an ordered, fixed-size sequence of exactly 4 unsigned 64-bit integers, mutable" (R21). No word is
an alias of another and every one of the 2^256 values can be held (R21, R23). -/
structure GenState where
  s0 : Word
  s1 : Word
  s2 : Word
  s3 : Word
  deriving DecidableEq, Repr

/-- The auxiliary slot `a32[0..3]`, read and written by no operation (R25). -/
structure AuxSlot where
  a0 : HalfWord
  a1 : HalfWord
  a2 : HalfWord
  a3 : HalfWord
  deriving DecidableEq, Repr

/-- The two exceptions of spec/60_exceptions.md R171. -/
inductive Cause where
  /-- The operation is declared by the source and has no algorithm: opcodes `0x2`, `0x3`, `0x4`. -/
  | unimplemented
  /-- The opcode names no operation: `0x5` to `0xF`. -/
  | reservedOpcode
  deriving DecidableEq, Repr

/-- The status of a response: `OK`, which is not an exception, or the exception raised (R64, R171). Code 3 is never
produced, so no constructor stands for it. -/
inductive Status where
  | ok
  | raised (cause : Cause)
  deriving DecidableEq, Repr

/-- The response to one command (R64). -/
structure Response where
  status : Status
  value : Word
  deriving DecidableEq, Repr

/-- Where the block is in its handshake (R200, R209). -/
inductive Phase where
  /-- The cycle after an edge with `rst = 1`: neither ready nor answering (R200). -/
  | starting
  /-- Idle: a command can be taken this cycle (R209, R210). -/
  | ready
  /-- A command has been executed; its response is on the output pins after `wait` more cycles, and stays there until it is
  taken (R209, R212). -/
  | answering (wait : Nat) (response : Response)
  deriving DecidableEq, Repr

/-- The input ports, sampled at one rising edge of `clk` (spec/30_encoding.md R71). -/
structure Pins where
  rst : Bool
  cmdValid : Bool
  cmdOp : Opcode
  cmdData : Word
  rspReady : Bool
  deriving DecidableEq, Repr

/-- One rising edge of `clk` as the block meets it: the input pins, and the values that `S_RESET` and `A_RESET` have at this
edge should it be a reset. Those two are no pins. They are the open parameters of R34, "Each reset gives a fresh unspecified
value"; nothing constrains them (log entry 4). -/
structure Edge where
  pins : Pins
  sReset : GenState
  aReset : AuxSlot
  deriving DecidableEq, Repr

/-- The block. -/
structure State where
  /-- The handshake (R200, R209). -/
  phase : Phase
  /-- The state words `s[0..3]` (R21). -/
  gen : GenState
  /-- The auxiliary slot `a32[0..3]` (R25). -/
  aux : AuxSlot
  /-- The model's own: `LAT_INIT` and `LAT_NEXT`, arguments of the launch (R212, log entry 3). -/
  lat : Latencies
  /-- The model's own: the coming clock edges, the next one first (log entry 5). -/
  inputs : List Edge
  deriving DecidableEq, Repr

/-- What stops the machine: nothing. `exec` "is a total function: every state and every command word has exactly one next
state and one response" (R16, R137), so there is no fault to name (log entry 16). -/
inductive Fault where
  deriving DecidableEq, Repr

/-- Why an instruction has no meaning in the model. -/
inductive Refusal where
  /-- Safe. Raised by no arm: every instruction of the table has its meaning. -/
  | notModelled (mnemonic : String)
  deriving DecidableEq, Repr

/-- The all-zero Generator State, which is legal to hold and degenerate (R21, spec/42_generator_core.md R138). -/
def GenState.zero : GenState := ⟨0, 0, 0, 0⟩

/-- The auxiliary slot with every word zero. -/
def AuxSlot.zero : AuxSlot := ⟨0, 0, 0, 0⟩

/-- The block right after a reset, for given values of the open parameters (R34, R201): the words hold `S_RESET`, the
auxiliary slot `A_RESET`, no command is in flight, and `cmd_ready` and `rsp_valid` are 0. -/
def State.resetWith (sReset : GenState) (aReset : AuxSlot) (lat : Latencies) : State :=
  { phase := .starting, gen := sReset, aux := aReset, lat := lat, inputs := [] }

/-- The reset state at one choice of the open parameters: `S_RESET` and `A_RESET` zero, each latency 1. DESIGN CHOICE,
unsafe: the spec gives none of these values (log entries 1, 2, 3); statements speak of `State.resetWith` at every value. -/
def State.reset : State := State.resetWith GenState.zero AuxSlot.zero ⟨0, 0⟩

end Sys2Proof.Machine
end

