-- ==== Sys2Proof/Machine/Flags.lean ====
section
/-!
DEFINITION. The block has no flags (spec/10_state.md R30). What a command reports instead is the status of its one response:
the codes of spec/30_encoding.md R64 and spec/60_exceptions.md R171, and the 66-bit response word.
-/

namespace Sys2Proof.Machine

/-- The cause code of an exception (R171). -/
def Cause.code : Cause → StatusCode
  | .unimplemented => 1#2
  | .reservedOpcode => 2#2

/-- The `status` field (R64). -/
def Status.code : Status → StatusCode
  | .ok => 0#2
  | .raised c => c.code

/-- The response word: `RW[65:64]` the status, `RW[63:0]` the value (R64). -/
def Response.word (r : Response) : ResponseWord := (r.status.code ++ r.value : BitVec (2 + 64))

/-- The response of a command that ends normally with a value (R64). -/
def Response.okWith (value : Word) : Response := ⟨.ok, value⟩

/-- The response of a command that raises: the exception's code and value 0 (R65, R175). -/
def Response.raising (c : Cause) : Response := ⟨.raised c, 0⟩

end Sys2Proof.Machine
end

