-- ==== Sys2Proof/Machine/Ops.lean ====
section
/-!
DEFINITION. The operations every command is made of: reading and writing a state word (spec/00_scope.md R13), ending with a
response, raising an exception (R15, spec/60_exceptions.md R175), and what the output pins show (spec/30_encoding.md R71).
-/

namespace Sys2Proof.Machine

/-- `s[i]` (R13). -/
def GenState.get (g : GenState) (i : Fin 4) : Word :=
  match i with
  | 0 => g.s0
  | 1 => g.s1
  | 2 => g.s2
  | 3 => g.s3

/-- `s[i] <- v` (R13): "A write of one word changes no other word" (R23). -/
def GenState.set (g : GenState) (i : Fin 4) (v : Word) : GenState :=
  match i with
  | 0 => { g with s0 := v }
  | 1 => { g with s1 := v }
  | 2 => { g with s2 := v }
  | 3 => { g with s3 := v }

/-- The slots in the order `initialize` writes them (R21, R114). -/
def slots : List (Fin 4) := [0, 1, 2, 3]

/-- The state with its handshake in the given phase and all else as it is (R209). -/
def State.withPhase (s : State) (p : Phase) : State := { s with phase := p }

/-- `respond(status, value)`: the command is over, it leaves the state words as given, and its response is on its way,
`extra` cycles beyond the first (R15, R209, R212). -/
def State.respond (s : State) (gen : GenState) (extra : Nat) (r : Response) : State :=
  { s with phase := .answering extra r, gen := gen }

/-- TAKING AN EXCEPTION, as R175 describes it: the command ends, no state word is written, the response carries the cause
code and value 0. Nothing is saved and control goes nowhere; there is no return from it to model (R176). Every command that
can raise answers after `LAT_NEXT` cycles (R212). -/
def raise (c : Cause) (s : State) : Host.Outcome State Fault Refusal :=
  .next (s.respond s.gen s.lat.nextExtra (.raising c))

/-- `cmd_ready`: 1 when no command is in progress and no response waits to be taken, and not in the cycle after a reset edge
(R200, R209). -/
def State.cmdReady (s : State) : Bool :=
  match s.phase with
  | .starting => false
  | .ready => true
  | .answering _ _ => false

/-- The response on the output pins, while `rsp_valid = 1`; `rsp_status` and `rsp_data` are meaningless while `rsp_valid` is
0 (R201, R209), so there is none then. -/
def State.rsp (s : State) : Option Response :=
  match s.phase with
  | .starting => none
  | .ready => none
  | .answering 0 r => some r
  | .answering (_ + 1) _ => none

/-- `rsp_valid` (R71, R209). -/
def State.rspValid (s : State) : Bool := s.rsp.isSome

/-- `rsp_status`, while `rsp_valid = 1` (R71). -/
def State.rspStatus (s : State) : Option StatusCode := s.rsp.map fun r => r.status.code

/-- `rsp_data`, while `rsp_valid = 1` (R71). -/
def State.rspData (s : State) : Option Word := s.rsp.map fun r => r.value

end Sys2Proof.Machine
end

