-- ==== Sys2Proof/Machine/Declared.lean ====
section
/-!
DEFINITION. The operations the source declares without an algorithm: spec/43_declared_unimplemented.md R160 to R163. Each
raises `Unimplemented` in every state; none reads or writes a state word or the auxiliary slot.
-/

namespace Sys2Proof.Machine

/-- `next_u32` (R160). -/
def execNextU32 (s : State) : Host.Outcome State Fault Refusal := raise .unimplemented s

/-- `next_f32` (R161). -/
def execNextF32 (s : State) : Host.Outcome State Fault Refusal := raise .unimplemented s

/-- `next_f64` (R162). -/
def execNextF64 (s : State) : Host.Outcome State Fault Refusal := raise .unimplemented s

end Sys2Proof.Machine
end

