-- ==== Sys2Proof/Machine/Operands.lean ====
section
/-!
DEFINITION. The datapath's constants, the one primitive `BitVec` does not have in the rules' own words, and the inverses of
the datapath's shift steps: spec/00_scope.md R8 and spec/40_arithmetic.md R90 to R100. The one operand form, the seed, is cut
out of the command word in Decode.lean (spec/30_encoding.md R63).
-/

namespace Sys2Proof.Machine

/-- `GAMMA`, the accumulator increment (R8). -/
def gamma : Word := 0x9e3779b97f4a7c15#64

/-- `M1`, the multiplier of mix step 1 (R8). -/
def m1 : Word := 0xbf58476d1ce4e5b9#64

/-- `M2`, the multiplier of mix step 2 (R8). -/
def m2 : Word := 0x94d049bb133111eb#64

/-- `SH1`, the right shift of mix step 1 (R8). -/
def sh1 : Nat := 30

/-- `SH2`, the right shift of mix step 2 (R8). -/
def sh2 : Nat := 27

/-- `SH3`, the right shift of mix step 3 (R8). -/
def sh3 : Nat := 31

/-- `ROT_OUT`, the left rotation in the output (R8). -/
def rotOut : Nat := 23

/-- `SH_T`, the left shift that makes `t` (R8). -/
def shT : Nat := 17

/-- `ROT_S3`, the left rotation of `s3` (R8). -/
def rotS3 : Nat := 45

/-- `rotl(x, k)`: "`rotate_left_64(x, k) = (x << k) | (x >> (64-k))` over the 64-bit word" (R97). The rule defines it for
`k` from 1 to 63, and the block uses 23 and 45 alone. -/
def rotl (x : Word) (k : Nat) : Word := (x <<< k) ||| (x >>> (64 - k))

/-- Undoes `x ^ (x >> k)`: "the inverse is `y -> y ^ (y >> k) ^ (y >> 2k) ^ ...` taken while the shift is below 64"
(R100). No command uses it. -/
def undoShiftRight (k : Nat) (y : Word) : Word :=
  (List.range (63 / k + 1)).foldl (fun z j => z ^^^ (y >>> (j * k))) 0

/-- Undoes `x ^ (x << k)`, "by the mirror image" (R100). No command uses it. -/
def undoShiftLeft (k : Nat) (y : Word) : Word :=
  (List.range (63 / k + 1)).foldl (fun z j => z ^^^ (y <<< (j * k))) 0

end Sys2Proof.Machine
end

