-- ==== Sys2Proof/Machine/Generator.lean ====
section
/-!
DEFINITION. The Generator Core and its one implemented operation, `next_u64`: spec/42_generator_core.md R130 to R134.
-/

namespace Sys2Proof.Machine

/-- The output, from the words before the step: `rotl(s[0] + s[3], 23) + s[0]` (R131). -/
def output (g : GenState) : Word := rotl (g.get 0 + g.get 3) rotOut + g.get 0

/-- `t = s[1] << 17`, from the word before the step (R132). -/
def shiftedWord (g : GenState) : Word := g.get 1 <<< shT

/-- The six lines of R133, in order; each reads the values the lines before it left. -/
def update (g : GenState) : GenState :=
  let t := shiftedWord g
  let g := g.set 2 (g.get 2 ^^^ g.get 0)
  let g := g.set 3 (g.get 3 ^^^ g.get 1)
  let g := g.set 1 (g.get 1 ^^^ g.get 2)
  let g := g.set 0 (g.get 0 ^^^ g.get 3)
  let g := g.set 2 (g.get 2 ^^^ t)
  g.set 3 (rotl (g.get 3) rotS3)

/-- `next_u64` (R134): the result is computed from the words before the step, then the words advance once. Defined on every
state, initialised or not (R137, R140). -/
def execNextU64 (s : State) : Host.Outcome State Fault Refusal :=
  .next (s.respond (update s.gen) s.lat.nextExtra (.okWith (output s.gen)))

end Sys2Proof.Machine
end

