-- ==== Sys2Proof/Machine/SeedExpander.lean ====
section
/-!
DEFINITION. The Seed Expander and its one operation, `initialize`: spec/41_seed_expander.md R110 to R114.
-/

namespace Sys2Proof.Machine

/-- `mix(v)`: the source's steps 2, 3 and 4 (R112). -/
def mix (v : Word) : Word :=
  let v := (v ^^^ (v >>> sh1)) * m1
  let v := (v ^^^ (v >>> sh2)) * m2
  v ^^^ (v >>> sh3)

/-- The values `initialize` carries from one slot to the next: the accumulator and the words written so far (R111, R114). -/
structure Expansion where
  acc : Word
  gen : GenState
  deriving DecidableEq, Repr

/-- One pass of the loop of R114: the accumulator is increased and kept, a copy of it is mixed and written to the slot. -/
def expandSlot (e : Expansion) (i : Fin 4) : Expansion :=
  let acc := e.acc + gamma
  { acc := acc, gen := e.gen.set i (mix acc) }

/-- The loop of R114 over the four slots in order, "starting from an accumulator initialized to the input seed" (R111). The
accumulator is dropped: no bit of the seed is kept (R117). -/
def expand (seed : Word) (g : GenState) : GenState :=
  (slots.foldl expandSlot { acc := seed, gen := g }).gen

/-- `initialize seed` (R114): all four words are written, the response is `OK` with value 0. -/
def execInitializeWith (seed : Word) (s : State) : Host.Outcome State Fault Refusal :=
  .next (s.respond (expand seed s.gen) s.lat.initExtra (.okWith 0))

end Sys2Proof.Machine
end

