-- ==== Sys2Proof/Machine/Dispatch.lean ====
section
/-!
DEFINITION. What each instruction does: one arm for each constructor of Instr.
-/

namespace Sys2Proof.Machine

def exec (i : Instr) (s : State) : Host.Outcome State Fault Refusal :=
  match i with
  | .initializeWith seed => Sys2Proof.Machine.execInitializeWith seed s
  | .nextU64 => Sys2Proof.Machine.execNextU64 s
  | .nextU32 => Sys2Proof.Machine.execNextU32 s
  | .nextF32 => Sys2Proof.Machine.execNextF32 s
  | .nextF64 => Sys2Proof.Machine.execNextF64 s

end Sys2Proof.Machine
end

