-- ==== Sys2Proof/Machine/Port.lean ====
section
/-!
DEFINITION. One rising edge of `clk`: the handshake of spec/70_reset_and_hazards.md R200 and R209 to R211 around the
execution of one command word.
-/

namespace Sys2Proof.Machine

/-- The command on the input pins, all 68 bits together (spec/30_encoding.md R71). -/
def Pins.command (p : Pins) : CommandWord := commandWord p.cmdOp p.cmdData

/-- Pins on which the host does nothing: no reset, no command, no response taken. -/
def Pins.quiet : Pins := { rst := false, cmdValid := false, cmdOp := 0, cmdData := 0, rspReady := false }

/-- Pins on which the host presents a command and does nothing else. -/
def Pins.presenting (cw : CommandWord) : Pins :=
  { Pins.quiet with cmdValid := true, cmdOp := opcodeField cw, cmdData := dataField cw }

/-- An edge with the given pins and no reset, whose reset parameters nothing reads. -/
def Edge.ofPins (p : Pins) : Edge := { pins := p, sReset := GenState.zero, aReset := AuxSlot.zero }

/-- One command word executed as one atomic step (R16, R44): its operation, or the exception of a reserved opcode (R66). -/
def executeCommand (cw : CommandWord) (s : State) : Host.Outcome State Fault Refusal :=
  match decode cw with
  | .ok i => exec i s
  | .error (.reservedOpcode _) => raise .reservedOpcode s

/-- An edge with `rst = 1`, in any state: a command in progress is abandoned without a response, the words take the values
`S_RESET` and `A_RESET` have at this edge, and the block is neither ready nor answering in the next cycle (R200, R211). -/
def resetEdge (e : Edge) (s : State) : State :=
  { s with phase := .starting, gen := e.sReset, aux := e.aReset }

/-- An edge with `rst = 0`. A command is transferred when the block is ready and one is presented, and a response when one is
on the pins and the host is ready (R71); the next command is taken only after that (R209). With neither, the block counts
down to its response, or is idle and keeps its state (R210). -/
def runningEdge (p : Pins) (s : State) : Host.Outcome State Fault Refusal :=
  match s.phase with
  | .starting => .next (s.withPhase .ready)
  | .ready => if p.cmdValid then executeCommand p.command s else .next s
  | .answering 0 _ => if p.rspReady then .next (s.withPhase .ready) else .next s
  | .answering (n + 1) r => .next (s.withPhase (.answering n r))

/-- One rising edge of `clk`. -/
def clockEdge (e : Edge) (s : State) : Host.Outcome State Fault Refusal :=
  if e.pins.rst then .next (resetEdge e s) else runningEdge e.pins s

/-- The edge the block meets next: the first of the list, or, when no more are listed, one on which the host does nothing
(log entry 5). -/
def nextEdge (s : State) : Edge :=
  match s.inputs with
  | [] => .ofPins .quiet
  | e :: _ => e

/-- The state with its next edge taken off the list. -/
def pastEdge (s : State) : State := { s with inputs := s.inputs.tail }

/-- The block meets its next edge. -/
def meetEdge (s : State) : Host.Outcome State Fault Refusal := clockEdge (nextEdge s) (pastEdge s)

/-- The state in which the host presents the command at the very next edge and the block can take it. -/
def presentNext (cw : CommandWord) (s : State) : State :=
  { s with phase := .ready, inputs := .ofPins (.presenting cw) :: s.inputs }

end Sys2Proof.Machine
end

