-- ==== Sys2Proof/Machine/Step.lean ====
section
/-!
DEFINITION. One step of the machine is one rising edge of `clk` (log entry 5).
-/

namespace Sys2Proof.Machine

/-- The block meets its next clock edge. -/
def step (s : State) : Host.Outcome State Fault Refusal := meetEdge s

/-- The state whose very next step takes and executes the command whose bits are those of `w`. The block has no program
counter and fetches nothing (spec/10_state.md R29), so what this sets is what a host sets: the command is presented at the
next edge, and the block is in the phase in which it takes one (log entry 6). -/
def State.withFetchWord (s : State) (_nbits w : Nat) : State := presentNext (BitVec.ofNat 68 w) s

end Sys2Proof.Machine
end

