-- ==== Sys2Proof/Machine/Assembler.lean ====
section
/-!
DEFINITION. The assembler and disassembler of spec/30_encoding.md R69 and R70: one line of text, as its characters, to a
command word and back. Nothing in the block depends on it. What the rule leaves open about the text (white space, the case of
hexadecimal digits, leading zeros) is log entry 13.
-/

namespace Sys2Proof.Machine

/-- Why a line is no command (R69). -/
inductive AsmError where
  /-- The first word of the line is no mnemonic; "Mnemonics are lower case". -/
  | unknownMnemonic
  /-- "`initialize` takes exactly one operand; the `next_*` mnemonics take none". -/
  | wrongOperandCount
  /-- The operand is no literal of the form R69 gives. -/
  | badLiteral
  /-- "A seed literal that does not fit 64 bits is an assembler error, not a truncation". -/
  | doesNotFit
  deriving DecidableEq, Repr

/-- `initialize` as characters. -/
def mnemonicInitialize : List Char := ['i', 'n', 'i', 't', 'i', 'a', 'l', 'i', 'z', 'e']

/-- `next_u64` as characters. -/
def mnemonicNextU64 : List Char := ['n', 'e', 'x', 't', '_', 'u', '6', '4']

/-- `next_u32` as characters. -/
def mnemonicNextU32 : List Char := ['n', 'e', 'x', 't', '_', 'u', '3', '2']

/-- `next_f32` as characters. -/
def mnemonicNextF32 : List Char := ['n', 'e', 'x', 't', '_', 'f', '3', '2']

/-- `next_f64` as characters. -/
def mnemonicNextF64 : List Char := ['n', 'e', 'x', 't', '_', 'f', '6', '4']

/-- `.word` as characters. -/
def mnemonicWord : List Char := ['.', 'w', 'o', 'r', 'd']

/-- The line without its comment: "Text from `;` to the end of a line is a comment" (R69). -/
def dropComment (line : List Char) : List Char := line.takeWhile fun c => c != ';'

/-- White space between the words of a line. -/
def isBlank (c : Char) : Bool := c == ' ' || c == '\t'

/-- The words of a text, the characters of the one being read given in order. -/
def wordsFrom (current : List Char) : List Char → List (List Char)
  | [] => if current.isEmpty then [] else [current]
  | c :: cs =>
    if isBlank c then
      if current.isEmpty then wordsFrom [] cs else current :: wordsFrom [] cs
    else wordsFrom (current ++ [c]) cs

/-- The words of a line, its comment left out. -/
def lineWords (line : List Char) : List (List Char) := wordsFrom [] (dropComment line)

/-- The value of a decimal digit. -/
def decimalDigit (c : Char) : Option Nat :=
  if 48 ≤ c.toNat ∧ c.toNat ≤ 57 then some (c.toNat - 48) else none

/-- The value of a hexadecimal digit, of either case. -/
def hexDigit (c : Char) : Option Nat :=
  if 48 ≤ c.toNat ∧ c.toNat ≤ 57 then some (c.toNat - 48)
  else if 97 ≤ c.toNat ∧ c.toNat ≤ 102 then some (c.toNat - 87)
  else if 65 ≤ c.toNat ∧ c.toNat ≤ 70 then some (c.toNat - 55)
  else none

/-- The number the digits write, most significant first, after digits that wrote `acc`; none if one is no digit. -/
def readDigits (base : Nat) (digit : Char → Option Nat) (acc : Nat) : List Char → Option Nat
  | [] => some acc
  | c :: cs =>
    match digit c with
    | none => none
    | some d => readDigits base digit (acc * base + d) cs

/-- `0x` followed by 1 to `most` hexadecimal digits. -/
def readHex (most : Nat) (digits : List Char) : Except AsmError Nat :=
  if digits.isEmpty then .error .badLiteral
  else
    match readDigits 16 hexDigit 0 digits with
    | none => .error .badLiteral
    | some n => if digits.length ≤ most then .ok n else .error .doesNotFit

/-- A seed literal: "0x followed by 1 to 16 hex digits, or decimal 0 .. 18446744073709551615" (R69). -/
def readSeed : List Char → Except AsmError Word
  | '0' :: 'x' :: ds =>
    match readHex 16 ds with
    | .ok n => if seedFits n then .ok (BitVec.ofNat 64 n) else .error .doesNotFit
    | .error e => .error e
  | [] => .error .badLiteral
  | ds =>
    match readDigits 10 decimalDigit 0 ds with
    | none => .error .badLiteral
    | some n => if seedFits n then .ok (BitVec.ofNat 64 n) else .error .doesNotFit

/-- The operand of `.word`: "a raw 68-bit command word, 0x followed by 1 to 17 hex digits" (R69). -/
def readCommand : List Char → Except AsmError CommandWord
  | '0' :: 'x' :: ds =>
    match readHex 17 ds with
    | .ok n => if commandFits n then .ok (BitVec.ofNat 68 n) else .error .doesNotFit
    | .error e => .error e
  | _ => .error .badLiteral

/-- The instruction a mnemonic without operands names (R69). -/
def bareMnemonic (m : List Char) : Option Instr :=
  if m = mnemonicNextU64 then some .nextU64
  else if m = mnemonicNextU32 then some .nextU32
  else if m = mnemonicNextF32 then some .nextF32
  else if m = mnemonicNextF64 then some .nextF64
  else none

/-- The command of a line given as its words, mnemonic first; none for an empty line (R69). -/
def assembleWords : List (List Char) → Except AsmError (Option CommandWord)
  | [] => .ok none
  | m :: operands =>
    if m = mnemonicInitialize then
      match operands with
      | [seed] => (readSeed seed).map fun w => some (encode (.initializeWith w))
      | _ => .error .wrongOperandCount
    else if m = mnemonicWord then
      match operands with
      | [w] => (readCommand w).map some
      | _ => .error .wrongOperandCount
    else
      match bareMnemonic m with
      | some i => if operands.isEmpty then .ok (some (encode i)) else .error .wrongOperandCount
      | none => .error .unknownMnemonic

/-- One line assembled: a command word, none if the line holds no command, or why it is an error (R69). -/
def assembleLine (line : List Char) : Except AsmError (Option CommandWord) := assembleWords (lineWords line)

/-- The digits of hexadecimal numbers, in order. -/
def hexChars : List Char := ['0', '1', '2', '3', '4', '5', '6', '7', '8', '9', 'a', 'b', 'c', 'd', 'e', 'f']

/-- The low `k` hexadecimal digits of a number, most significant first. -/
def writeHex : Nat → Nat → List Char
  | 0, _ => []
  | k + 1, n => writeHex k (n / 16) ++ [hexChars.getD (n % 16) '0']

/-- A number written with `0x` and all its `k` digits (spec/00_scope.md R10). -/
def writeLiteral (k n : Nat) : List Char := '0' :: 'x' :: writeHex k n

/-- A number written in decimal, its digits given most significant first (R69). -/
def writeDecimal (ds : List (Fin 10)) : List Char := ds.map fun d => hexChars.getD d.val '0'

/-- The canonical line of an instruction (R69). -/
def canonicalLine : Instr → List Char
  | .initializeWith seed => mnemonicInitialize ++ ' ' :: writeLiteral 16 seed.toNat
  | .nextU64 => mnemonicNextU64
  | .nextU32 => mnemonicNextU32
  | .nextF32 => mnemonicNextF32
  | .nextF64 => mnemonicNextF64

/-- A command word as a raw word (R69). -/
def rawLine (cw : CommandWord) : List Char := mnemonicWord ++ ' ' :: writeLiteral 17 cw.toNat

/-- "A disassembler prints the canonical form and, for a `next_*` word whose `data` is not zero, may print `.word`"; a
reserved word has no other form (R69, log entry 14). -/
def disassemble (cw : CommandWord) : List Char :=
  match decode cw with
  | .ok i => if encode i = cw then canonicalLine i else rawLine cw
  | .error _ => rawLine cw

end Sys2Proof.Machine
end

