-- ==== Sys2Proof/Machine/System.lean ====
section
/-!
DEFINITION. Several instances of the block: "Each has its own four state words and its own command and response ports;
instances share nothing" (spec/60_exceptions.md R181).
-/

namespace Sys2Proof.Machine

/-- Instance `k` of a system of blocks meets its next clock edge, each instance at its own pace (R181). A number that no
instance has steps nothing. -/
def stepAt (k : Nat) (sys : List State) : Host.Outcome (List State) Fault Refusal :=
  match sys[k]? with
  | none => .next sys
  | some s =>
    match step s with
    | .next t => .next (sys.set k t)
    | .fault r => .fault r
    | .refused r => .refused r

end Sys2Proof.Machine
end

