-- ==== Sys2Proof/Machine/Run.lean ====
section
/-!
DEFINITION. Runs, at the two levels of the spec: the commands and responses of spec/00_scope.md R16 and
spec/70_reset_and_hazards.md R213, and what passes over the pins in a number of clock edges (spec/30_encoding.md R71). Nothing
here says anew what a command does; both levels go through `executeCommand` and `step`.
-/

namespace Sys2Proof.Machine

/-- The response in flight: of a command executed and not yet answered (R209). -/
def State.pending (s : State) : Option Response :=
  match s.phase with
  | .starting => none
  | .ready => none
  | .answering _ r => some r

/-- One command with its response, "one atomic step `exec : State x Command -> State x Response`" (R16): the command is
executed and its response taken. -/
def transact (cw : CommandWord) (s : State) : Option (State × Response) :=
  match executeCommand cw s with
  | .next t => t.pending.map fun r => (t.withPhase .ready, r)
  | .fault _ => none
  | .refused _ => none

/-- The commands of a run executed in the order presented, with the list of their responses: "`exec` folded over the list"
(R213). -/
def runCommands : List CommandWord → State → Option (State × List Response)
  | [], s => some (s, [])
  | cw :: cs, s =>
    match transact cw s with
    | none => none
    | some (t, r) => (runCommands cs t).map fun (u, rs) => (u, r :: rs)

/-- The command transferred at the next edge: `cmd_valid` and `cmd_ready` are both 1 and `rst` is 0 (R71). -/
def State.accepts (s : State) : Option CommandWord :=
  let p := (nextEdge s).pins
  if !p.rst && s.cmdReady && p.cmdValid then some p.command else none

/-- The response transferred at the next edge: `rsp_valid` and `rsp_ready` are both 1 and `rst` is 0 (R71). -/
def State.delivers (s : State) : Option Response :=
  let p := (nextEdge s).pins
  if !p.rst && p.rspReady then s.rsp else none

/-- What has passed over the two channels of the pins, oldest first. -/
structure Traffic where
  commands : List CommandWord
  responses : List Response
  deriving DecidableEq, Repr

/-- The state after `k` clock edges, and the commands and responses transferred at them. -/
def observe : Nat → State → Option (State × Traffic)
  | 0, s => some (s, ⟨[], []⟩)
  | k + 1, s =>
    match step s with
    | .next t =>
      (observe k t).map fun (u, tr) =>
        (u, ⟨s.accepts.toList ++ tr.commands, s.delivers.toList ++ tr.responses⟩)
    | .fault _ => none
    | .refused _ => none

/-- The next `k` edges that are listed hold no reset. -/
def State.resetFree (k : Nat) (s : State) : Bool := (s.inputs.take k).all fun e => !e.pins.rst

/-- `S_n` of spec/42_generator_core.md R141: the words after `n` steps from the words that `initialize seed` leaves. -/
def streamState (seed : Word) (n : Nat) : GenState := update^[n] (expand seed GenState.zero)

/-- `out_(n+1)` of R141: the result of the step that starts from `S_n`. -/
def streamOutput (seed : Word) (n : Nat) : Word := output (streamState seed n)

end Sys2Proof.Machine
end

