-- ==== Sys2Proof/Safety.lean ====
section
/-!
DEFINITION. What counts as a safe run. The block itself never goes wrong (spec/42_generator_core.md R137); these are the
preconditions on the host, which the block does not check: spec/70_reset_and_hazards.md R203, R205 and R209,
spec/10_state.md R26.
-/

namespace Sys2Proof.Machine

/-- The all-zero state, from which every output is 0 for ever (spec/42_generator_core.md R138); the words a safe run never
draws from (spec/10_state.md R26). -/
def GenState.degenerate (g : GenState) : Bool := g == GenState.zero

/-- The commands draw no number before the first `initialize`: the precondition of R203 and R205, "at least one
`initialize` has executed since the last reset". -/
def seedsFirst : List CommandWord → Bool
  | [] => true
  | cw :: cs =>
    match decode cw with
    | .ok (.initializeWith _) => true
    | .ok .nextU64 => false
    | .ok .nextU32 => seedsFirst cs
    | .ok .nextF32 => seedsFirst cs
    | .ok .nextF64 => seedsFirst cs
    | .error _ => seedsFirst cs

/-- Commands none of which is an `initialize`. -/
def neverSeeds (cs : List CommandWord) : Bool := cs.all fun cw => opcodeField cw != 0

/-- The words are not degenerate, and no coming reset edge makes them so: the invariant of spec/10_state.md R26 on a platform
that ties `S_RESET` to values that are not all zero (R203). -/
def State.healthy (s : State) : Bool :=
  !s.gen.degenerate && s.inputs.all fun e => !e.pins.rst || !e.sReset.degenerate

/-- A response the block can give: the value is zero unless the status is `OK` (spec/30_encoding.md R64). -/
def Response.legal (r : Response) : Bool := r.status == .ok || r.value == 0

/-- What is in flight is a legal response, at most as far from the pins as a latency allows
(spec/70_reset_and_hazards.md R209, R212). -/
def State.portLegal (s : State) : Bool :=
  match s.phase with
  | .starting => true
  | .ready => true
  | .answering wait r => r.legal && decide (wait ≤ max s.lat.initExtra s.lat.nextExtra)

/-- "The host must hold `cmd_op`, `cmd_data` stable while `cmd_valid = 1` until the transfer" (R209): a command shown at one
edge and neither taken nor reset away is the one still shown at the next, if any is. DESIGN CHOICE, safe: R209 says "until the
transfer" and leaves open whether the duty survives a reset edge and whether a command may be withdrawn; here an edge with
`rst = 1` ends the duty, and so does `cmd_valid = 0` (log entry 20). -/
def keepsCommand (s t : State) : Bool :=
  let p := (nextEdge s).pins
  let q := (nextEdge t).pins
  !(p.cmdValid && !p.rst && s.accepts.isNone && q.cmdValid) || p.command == q.command

/-- The host keeps that promise over the next `k` edges. -/
def hostKeepsCommands : Nat → State → Bool
  | 0, _ => true
  | k + 1, s =>
    match step s with
    | .next t => keepsCommand s t && hostKeepsCommands k t
    | .fault _ => true
    | .refused _ => true

end Sys2Proof.Machine
end

