-- ==== Sys2Proof/Certificates/Slice0/Obligations.lean ====
section
/-!
DEFINITION. The statements for the provers. Each docstring names the rule of spec/ the statement formalises, or the section
it rests on where the rule is one the spec derives itself or the statement takes in only a part of it.
-/

open Sys2Proof Sys2Proof.Machine

/-! ### Encoding -/

/-- R62, R68: decoding is a function of the top four bits, the five operations have opcodes 0 to 4 with the seed in the low 64
bits, a word that matches no row of the opcode table is reserved, and the rows have the one mask and the opcode as match. -/
def Obligations.DecodeIsTheOpcodeTable : Prop :=
  opcodeRows =
    [⟨0xF0000000000000000#68, 0x00000000000000000#68⟩, ⟨0xF0000000000000000#68, 0x10000000000000000#68⟩,
     ⟨0xF0000000000000000#68, 0x20000000000000000#68⟩, ⟨0xF0000000000000000#68, 0x30000000000000000#68⟩,
     ⟨0xF0000000000000000#68, 0x40000000000000000#68⟩] ∧
  ∀ cw : CommandWord,
    (cw &&& 0xF0000000000000000#68 = 0x00000000000000000#68 →
      decode cw = .ok (.initializeWith (cw.extractLsb' 0 64))) ∧
    (cw &&& 0xF0000000000000000#68 = 0x10000000000000000#68 → decode cw = .ok .nextU64) ∧
    (cw &&& 0xF0000000000000000#68 = 0x20000000000000000#68 → decode cw = .ok .nextU32) ∧
    (cw &&& 0xF0000000000000000#68 = 0x30000000000000000#68 → decode cw = .ok .nextF32) ∧
    (cw &&& 0xF0000000000000000#68 = 0x40000000000000000#68 → decode cw = .ok .nextF64) ∧
    ((∀ r ∈ opcodeRows, r.accepts cw = false) ↔
      decode cw = .error (.reservedOpcode (cw.extractLsb' 64 4)))

/-- R63: the seed is the low 64 bits of the word exactly as they stand; for every other opcode the data field has no effect
on the state or the response, and the canonical word holds zero there. -/
def Obligations.DataFieldIsTheSeedOrIgnored : Prop :=
  (∀ (op : Opcode) (d : Word), (commandWord op d).toNat = op.toNat * 2 ^ 64 + d.toNat) ∧
  (∀ seed : Word, decode (commandWord 0 seed) = .ok (.initializeWith seed)) ∧
  (∀ (op : Opcode) (d d' : Word) (s : State), op ≠ 0 →
    executeCommand (commandWord op d) s = executeCommand (commandWord op d') s) ∧
  (∀ i : Instr, (∀ seed : Word, i ≠ .initializeWith seed) → (encode i).extractLsb' 0 64 = 0)

/-- 30_encoding.md section 2: decoding the canonical word of any instruction gives the instruction back, every seed
included. -/
def Obligations.DecodeOfEncode : Prop :=
  ∀ i : Instr, i.wellFormed = true ∧ decode (encode i) = .ok i

/-- 30_encoding.md sections 2 and 5: a word that decodes to an instruction has that instruction's opcode, and is its
canonical word exactly when it is an `initialize` or its data field is zero. -/
def Obligations.EncodeOfDecodeIsCanonical : Prop :=
  ∀ (cw : CommandWord) (i : Instr), decode cw = .ok i →
    (encode i).extractLsb' 64 4 = cw.extractLsb' 64 4 ∧
    (encode i = cw ↔ (cw.extractLsb' 64 4 = 0 ∨ cw.extractLsb' 0 64 = 0))

/-- 30_encoding.md section 5: the words its rules write out decode to the operations they name. A sanity check. -/
def Obligations.WrittenOutWordsDecode : Prop :=
  decode 0x09e3779b97f4a7c15#68 = .ok (.initializeWith 0x9e3779b97f4a7c15#64) ∧
  decode 0x10000000000000000#68 = .ok .nextU64 ∧
  decode 0x20000000000000000#68 = .ok .nextU32 ∧
  decode 0x30000000000000000#68 = .ok .nextF32 ∧
  decode 0x40000000000000000#68 = .ok .nextF64 ∧
  decode 0xf0123456789abcdef#68 = .error (.reservedOpcode 0xf#4)

/-- R64, R65, R171: the response word is the status code in bits 65 and 64 over the value; the codes are 0, 1 and 2 and never
3; which status a command gets depends on its opcode alone, and the value is the output of `next_u64` or zero. -/
def Obligations.EveryCommandHasItsResponse : Prop :=
  (∀ v : Word, (Response.mk .ok v).word.toNat = v.toNat) ∧
  (∀ v : Word, (Response.mk (.raised .unimplemented) v).word.toNat = 1 * 2 ^ 64 + v.toNat) ∧
  (∀ v : Word, (Response.mk (.raised .reservedOpcode) v).word.toNat = 2 * 2 ^ 64 + v.toNat) ∧
  (∀ r : Response, r.word.extractLsb' 64 2 ≠ 3#2) ∧
  ∀ (op : Opcode) (d : Word) (s : State), ∃ (t : State) (r : Response),
    executeCommand (commandWord op d) s = .next t ∧ t.pending = some r ∧
    (op.toNat = 0 → r = ⟨.ok, 0⟩) ∧
    (op.toNat = 1 → r = ⟨.ok, output s.gen⟩) ∧
    (2 ≤ op.toNat → op.toNat ≤ 4 → r = ⟨.raised .unimplemented, 0⟩) ∧
    (5 ≤ op.toNat → r = ⟨.raised .reservedOpcode, 0⟩)

/-! ### Assembler -/

/-- 30_encoding.md section 5, with the model's choices of log entries 13 and 14: what the disassembler prints for a command
word, any of the 2^68, assembles to that word. -/
def Obligations.AssembleOfDisassemble : Prop :=
  ∀ cw : CommandWord, assembleLine (disassemble cw) = .ok (some cw)

/-- 30_encoding.md section 5, with the model's choice of log entry 13: the canonical line of an instruction assembles to its
canonical word, with or without white space after it and a comment. -/
def Obligations.CanonicalLineAssembles : Prop :=
  ∀ (i : Instr) (comment : List Char),
    assembleLine (canonicalLine i) = .ok (some (encode i)) ∧
    assembleLine (canonicalLine i ++ ' ' :: ';' :: comment) = .ok (some (encode i))

/-- 30_encoding.md section 5: a seed literal of `0x` and 1 to 16 hexadecimal digits is the number it writes, one of more digits
is an error and no truncation, and `0x` alone is an error; a decimal literal, of any number of digits but none, is the number
it writes if that is at most 2^64 - 1, and an error and no truncation otherwise (leading zeros, and which error it is called,
are the model's choice, log entry 13). -/
def Obligations.SeedLiteralFitsOrIsAnError : Prop :=
  (∀ k n : Nat,
    (1 ≤ k → k ≤ 16 →
      assembleLine (mnemonicInitialize ++ ' ' :: writeLiteral k n) =
        .ok (some (encode (.initializeWith (BitVec.ofNat 64 (n % 16 ^ k)))))) ∧
    (17 ≤ k → assembleLine (mnemonicInitialize ++ ' ' :: writeLiteral k n) = .error .doesNotFit) ∧
    (k = 0 → assembleLine (mnemonicInitialize ++ ' ' :: writeLiteral k n) = .error .badLiteral)) ∧
  ∀ (ds : List (Fin 10)) (n : Nat), ds ≠ [] → n = Nat.ofDigits 10 (ds.map Fin.val).reverse →
    (n ≤ 18446744073709551615 →
      assembleLine (mnemonicInitialize ++ ' ' :: writeDecimal ds) =
        .ok (some (encode (.initializeWith (BitVec.ofNat 64 n))))) ∧
    (18446744073709551615 < n →
      assembleLine (mnemonicInitialize ++ ' ' :: writeDecimal ds) = .error .doesNotFit)

/-! ### Arithmetic -/

/-- 40_arithmetic.md section 2: the rotation moves bit `i - k` to bit `i`, the top `k` bits re-entering at the bottom. -/
def Obligations.RotationMovesBitsRound : Prop :=
  ∀ (x : Word) (k i : Nat), 1 ≤ k → k ≤ 63 → i < 64 →
    (rotl x k).getLsbD i = x.getLsbD ((i + (64 - k)) % 64)

/-- R98: rotating by `k` and then by `64 - k`, in either order, is the identity; the inverses of the rotations by 45 and 23
are those by 19 and 41; rotation distributes over exclusive or and not over addition. -/
def Obligations.RotationRoundTrip : Prop :=
  (∀ (x : Word) (k : Nat), 1 ≤ k → k ≤ 63 →
    rotl (rotl x k) (64 - k) = x ∧ rotl (rotl x (64 - k)) k = x) ∧
  (∀ k : Nat, 1 ≤ k → k ≤ 63 → Function.Bijective fun x => rotl x k) ∧
  (∀ x : Word, rotl (rotl x 45) 19 = x ∧ rotl (rotl x 19) 45 = x ∧
    rotl (rotl x 23) 41 = x ∧ rotl (rotl x 41) 23 = x) ∧
  (∀ (a b : Word) (k : Nat), 1 ≤ k → k ≤ 63 → rotl (a ^^^ b) k = rotl a k ^^^ rotl b k) ∧
  (∃ (a b : Word) (k : Nat), 1 ≤ k ∧ k ≤ 63 ∧ rotl (a + b) k ≠ rotl a k + rotl b k)

/-- 40_arithmetic.md section 3 and 41_seed_expander.md section 1: the steps of the block's datapath are bijections that send 0
to 0, each with the inverse the spec names. For every `k` from 1 to 63, so for `SH1`, `SH2` and `SH3` and for `SH_T`, exclusive or with a copy shifted right, or
left, by `k` is undone by the exclusive or of all the copies shifted that way by a multiple of `k` below 64; multiplication by
an odd constant is undone by multiplication by its inverse, which for `M1` and `M2` is the one named; and the inverses, last
step first, undo `mix`. -/
def Obligations.DatapathStepsAreInvertible : Prop :=
  (∀ k : Nat, 1 ≤ k → k ≤ 63 →
    (∀ x : Word, undoShiftRight k (x ^^^ (x >>> k)) = x ∧
      undoShiftRight k x ^^^ (undoShiftRight k x >>> k) = x) ∧
    (∀ x : Word, undoShiftLeft k (x ^^^ (x <<< k)) = x ∧
      undoShiftLeft k x ^^^ (undoShiftLeft k x <<< k) = x) ∧
    Function.Bijective (fun x : Word => x ^^^ (x >>> k)) ∧
    Function.Bijective (fun x : Word => x ^^^ (x <<< k)) ∧
    (0 : Word) ^^^ ((0 : Word) >>> k) = 0 ∧ (0 : Word) ^^^ ((0 : Word) <<< k) = 0) ∧
  (∀ k : Nat, k = sh1 ∨ k = sh2 ∨ k = sh3 ∨ k = shT → 1 ≤ k ∧ k ≤ 63) ∧
  (∀ x : Word, let y := x ^^^ (x <<< shT); y ^^^ (y <<< 17) ^^^ (y <<< 34) ^^^ (y <<< 51) = x) ∧
  (∀ c : Word, c.getLsbD 0 = true →
    Function.Bijective (fun x : Word => x * c) ∧ 0 * c = 0 ∧ ∃ d : Word, ∀ x : Word, x * c * d = x ∧ x * d * c = x) ∧
  m1.getLsbD 0 = true ∧ m2.getLsbD 0 = true ∧
  (∀ x : Word, x * m1 * 0x96de1b173f119089#64 = x ∧ x * 0x96de1b173f119089#64 * m1 = x ∧
    x * m2 * 0x319642b2d24d8ec3#64 = x ∧ x * 0x319642b2d24d8ec3#64 * m2 = x) ∧
  (∀ v : Word, undoShiftRight sh1
    (undoShiftRight sh2 (undoShiftRight sh3 (mix v) * 0x319642b2d24d8ec3#64) * 0x96de1b173f119089#64) = v)

/-! ### The Seed Expander -/

/-- R112: the mix function, with its constants written out. -/
def Obligations.MixIsThreeSteps : Prop :=
  ∀ v : Word, ∃ v1 v2 : Word,
    v1 = (v ^^^ (v >>> 30)) * 0xbf58476d1ce4e5b9#64 ∧
    v2 = (v1 ^^^ (v1 >>> 27)) * 0x94d049bb133111eb#64 ∧
    mix v = v2 ^^^ (v2 >>> 31)

/-- 41_seed_expander.md sections 2 and 3: in every state `initialize` completes with `OK` and value 0, word `i` becomes the
mix of the seed plus `i + 1` times the increment, and nothing else changes but the handshake, which is to answer after
`LAT_INIT` cycles. -/
def Obligations.InitializeClosedForm : Prop :=
  ∀ (seed : Word) (s : State),
    exec (.initializeWith seed) s =
      .next { s with
        gen :=
          { s0 := mix (seed + 0x9e3779b97f4a7c15#64)
            s1 := mix (seed + 0x3c6ef372fe94f82a#64)
            s2 := mix (seed + 0xdaa66d2c7ddf743f#64)
            s3 := mix (seed + 0x78dde6e5fd29f054#64) }
        phase := .answering s.lat.initExtra ⟨.ok, 0⟩ }

/-- R111: the accumulator starts as the seed, is increased before each slot and carries forward, so the working value of slot
`i` is the seed plus `i + 1` times the increment, modulo 2^64; each word is the mix of its slot's working value. -/
def Obligations.AccumulatorCarriesForward : Prop :=
  ∀ (seed : Word) (g : GenState) (n : Nat), n ≤ 4 →
    ((slots.take n).foldl expandSlot ⟨seed, g⟩).acc.toNat = (seed.toNat + n * 11400714819323198485) % 2 ^ 64 ∧
    ∀ i : Fin 4,
      (expand seed g).get i = mix (BitVec.ofNat 64 (seed.toNat + (i.val + 1) * 11400714819323198485))

/-- R116: after `initialize seed` the words and every later response are the same whatever the state was before and whatever
commands came before it, an earlier `initialize` of the same seed included. -/
def Obligations.ReseedingStartsAfresh : Prop :=
  ∀ (seed : Word) (before after : List CommandWord) (s t : State),
    ∃ (u v : State) (rs rs' : List Response) (r : Response),
      runCommands (before ++ encode (.initializeWith seed) :: after) s = some (u, rs ++ r :: rs') ∧
      runCommands (encode (.initializeWith seed) :: after) t = some (v, r :: rs') ∧
      rs.length = before.length ∧ u.gen = v.gen

/-- 41_seed_expander.md section 3: slot `i + 1` of the expansion of `x` is slot `i` of the expansion of `x` plus the
increment. -/
def Obligations.ExpansionShiftsWithTheSeed : Prop :=
  ∀ (x : Word) (g g' : GenState),
    (expand x g).s1 = (expand (x + 0x9e3779b97f4a7c15#64) g').s0 ∧
    (expand x g).s2 = (expand (x + 0x9e3779b97f4a7c15#64) g').s1 ∧
    (expand x g).s3 = (expand (x + 0x9e3779b97f4a7c15#64) g').s2

/-- 41_seed_expander.md section 3: `mix` is a bijection and 0 is the one value it sends to 0. -/
def Obligations.MixIsABijectionFixingZero : Prop :=
  Function.Bijective mix ∧ ∀ w : Word, mix w = 0 ↔ w = 0

/-- 41_seed_expander.md section 3: at most one of the four words `initialize` writes is zero, for the four seeds the spec
names; so no seed expands to the all-zero state. -/
def Obligations.AtMostOneExpandedWordIsZero : Prop :=
  ∀ (seed : Word) (g : GenState),
    ((expand seed g).s0 = 0 ↔ seed = 0x61c8864680b583eb#64) ∧
    ((expand seed g).s1 = 0 ↔ seed = 0xc3910c8d016b07d6#64) ∧
    ((expand seed g).s2 = 0 ↔ seed = 0x255992d382208bc1#64) ∧
    ((expand seed g).s3 = 0 ↔ seed = 0x8722191a02d60fac#64) ∧
    (∀ i j : Fin 4, (expand seed g).get i = 0 → (expand seed g).get j = 0 → i = j) ∧
    (expand seed g).degenerate = false

/-- 41_seed_expander.md section 3: different seeds give different first words, so different expanded states. -/
def Obligations.DifferentSeedsExpandDifferently : Prop :=
  ∀ (x y : Word) (g g' : GenState), x ≠ y → (expand x g).s0 ≠ (expand y g').s0

/-! ### The Generator Core -/

/-- R131: the response of `next_u64` is the rotated sum of words 0 and 3 plus word 0, from the words before the step, so words
1 and 2 have no part in it. -/
def Obligations.OutputIsTheRotatedSum : Prop :=
  ∀ s : State, ∃ (t : State) (sum : Word),
    exec .nextU64 s = .next t ∧
    sum = s.gen.s0 + s.gen.s3 ∧
    t.pending = some ⟨.ok, ((sum <<< 23) ||| (sum >>> 41)) + s.gen.s0⟩ ∧
    ∀ b c : Word, output { s.gen with s1 := b, s2 := c } = output s.gen

/-- R132, R133: `t` is word 1 shifted left by 17, its top 17 bits lost; the six lines change the words one after another, each
reading what the lines before it wrote. -/
def Obligations.UpdateIsSixLinesInOrder : Prop :=
  (∀ g : GenState, ∀ i : Nat, (g.s1 <<< 17).getLsbD i = (decide (17 ≤ i) && decide (i < 64) && g.s1.getLsbD (i - 17))) ∧
  ∀ s : State, ∃ (u : State) (t line1 line2 line3 line4 line5 line6 : Word),
    exec .nextU64 s = .next u ∧
    t = s.gen.s1 <<< 17 ∧
    line1 = s.gen.s2 ^^^ s.gen.s0 ∧
    line2 = s.gen.s3 ^^^ s.gen.s1 ∧
    line3 = s.gen.s1 ^^^ line1 ∧
    line4 = s.gen.s0 ^^^ line2 ∧
    line5 = line1 ^^^ t ∧
    line6 = (line2 <<< 45) ||| (line2 >>> 19) ∧
    u.gen = ⟨line4, line3, line5, line6⟩

/-- 42_generator_core.md section 3: in every state `next_u64` completes with `OK` and the result, the words become the spec's
closed form of their old values, and nothing else changes but the handshake, which is to answer after `LAT_NEXT` cycles. -/
def Obligations.NextU64ClosedForm : Prop :=
  ∀ (s : State) (a b c d : Word), s.gen = ⟨a, b, c, d⟩ →
    exec .nextU64 s =
      .next { s with
        gen :=
          { s0 := a ^^^ b ^^^ d
            s1 := a ^^^ b ^^^ c
            s2 := a ^^^ c ^^^ (b <<< 17)
            s3 := ((b ^^^ d) <<< 45) ||| ((b ^^^ d) >>> 19) }
        phase := .answering s.lat.nextExtra ⟨.ok, (((a + d) <<< 23) ||| ((a + d) >>> 41)) + a⟩ }

/-- R137: `next_u64` is defined on every state, always answers `OK` after finitely many cycles, and never
faults or refuses. -/
def Obligations.NextU64NeverFails : Prop :=
  ∀ s : State, ∃ (t : State) (v : Word), exec .nextU64 s = .next t ∧ t.phase = .answering s.lat.nextExtra ⟨.ok, v⟩

/-- 42_generator_core.md section 3: the update is linear over exclusive or; the output is not. -/
def Obligations.UpdateIsLinear : Prop :=
  (∀ a b c d a' b' c' d' : Word,
    let x := update ⟨a, b, c, d⟩
    let y := update ⟨a', b', c', d'⟩
    update ⟨a ^^^ a', b ^^^ b', c ^^^ c', d ^^^ d'⟩ =
      ⟨x.s0 ^^^ y.s0, x.s1 ^^^ y.s1, x.s2 ^^^ y.s2, x.s3 ^^^ y.s3⟩) ∧
  ∃ a b c d a' b' c' d' : Word,
    output ⟨a ^^^ a', b ^^^ b', c ^^^ c', d ^^^ d'⟩ ≠ output ⟨a, b, c, d⟩ ^^^ output ⟨a', b', c', d'⟩

/-- 42_generator_core.md section 3: the update is a bijection of the states, and the spec's recovery of the old words from
the new ones is right. -/
def Obligations.UpdateIsABijection : Prop :=
  Function.Bijective update ∧
  ∀ a b c d p q r u e y : Word,
    update ⟨a, b, c, d⟩ = ⟨p, q, r, u⟩ → e = rotl u 19 → y = q ^^^ r →
      a = p ^^^ e ∧
      b = y ^^^ (y <<< 17) ^^^ (y <<< 34) ^^^ (y <<< 51) ∧
      c = q ^^^ a ^^^ b ∧
      d = e ^^^ b

/-- 42_generator_core.md section 3: from the all-zero state every later result is 0 and the state stays all zero, over any
commands but an `initialize`; at the pins, only a reset or the transfer of an `initialize` can leave it (that the words change
at the edge of the transfer is log entry 7). -/
def Obligations.AllZeroStateIsAFixedPoint : Prop :=
  (∀ (cs : List CommandWord) (s : State), s.gen = ⟨0, 0, 0, 0⟩ → neverSeeds cs = true →
    ∃ (t : State) (rs : List Response),
      runCommands cs s = some (t, rs) ∧ t.gen = ⟨0, 0, 0, 0⟩ ∧ rs.length = cs.length ∧ ∀ r ∈ rs, r.value = 0) ∧
  (∀ s : State, s.gen = ⟨0, 0, 0, 0⟩ → (nextEdge s).pins.rst = false →
    (∀ cw, s.accepts = some cw → opcodeField cw ≠ 0) →
    ∃ t : State, step s = .next t ∧ t.gen = ⟨0, 0, 0, 0⟩)

/-- 42_generator_core.md section 3: after `initialize seed`, over any commands without another `initialize`, the values
answered with `OK` are the outputs of the seed's stream in order, one for each `next_u64`; commands that raise do not advance
it. -/
def Obligations.DrawsFollowTheStream : Prop :=
  ∀ (seed : Word) (cs : List CommandWord) (s : State), neverSeeds cs = true →
    ∃ (t : State) (rs : List Response),
      runCommands (encode (.initializeWith seed) :: cs) s = some (t, ⟨.ok, 0⟩ :: rs) ∧
      t.gen = streamState seed (cs.countP fun cw => opcodeField cw == 1) ∧
      (rs.filter fun r => r.status == .ok).map Response.value =
        (List.range (cs.countP fun cw => opcodeField cw == 1)).map (streamOutput seed)

/-! ### Exceptions -/

/-- R160, R161, R162: each of the three declared operations, whatever its data field, raises `Unimplemented` in every state:
the response word is `0x10000000000000000` and nothing but the handshake changes. -/
def Obligations.DeclaredOperationsRaise : Prop :=
  ∀ (i : Instr) (canonical : CommandWord) (data : Word) (s : State),
    (i = .nextU32 ∧ canonical = 0x20000000000000000#68) ∨ (i = .nextF32 ∧ canonical = 0x30000000000000000#68) ∨
      (i = .nextF64 ∧ canonical = 0x40000000000000000#68) →
    encode i = canonical ∧
    decode (commandWord (opcodeField canonical) data) = .ok i ∧
    exec i s = .next { s with phase := .answering s.lat.nextExtra ⟨.raised .unimplemented, 0⟩ } ∧
    (Response.mk (.raised .unimplemented) 0).word = 0x10000000000000000#66

/-- 30_encoding.md section 4 and 70_reset_and_hazards.md section 5: a command with a reserved opcode, whatever its data field,
changes nothing but the handshake and is answered with status 2 and value 0; the commands after it run as if it had not been
presented (that it answers after `LAT_NEXT` cycles is log entry 10). -/
def Obligations.ReservedOpcodesRaise : Prop :=
  ∀ (op : Opcode) (data : Word) (s : State), 5 ≤ op.toNat →
    executeCommand (commandWord op data) s =
      .next { s with phase := .answering s.lat.nextExtra ⟨.raised .reservedOpcode, 0⟩ } ∧
    (Response.mk (.raised .reservedOpcode) 0).word = 0x20000000000000000#66 ∧
    ∀ (cs : List CommandWord) (t : State) (rs : List Response),
      runCommands cs { s with phase := .ready } = some (t, rs) →
      runCommands (commandWord op data :: cs) s = some (t, ⟨.raised .reservedOpcode, 0⟩ :: rs)

/-- 60_exceptions.md section 4 and 70_reset_and_hazards.md section 5: a command that raises writes no state word, answers its
cause code with value 0, and leaves no trace: the commands before and after it give the same responses and the same end state as
without it (that a reserved opcode answers after `LAT_NEXT` cycles is log entry 10). -/
def Obligations.ExceptionsLeaveNoTrace : Prop :=
  ∀ (op : Opcode) (data : Word) (s : State), 2 ≤ op.toNat →
    ∃ c : Cause,
      executeCommand (commandWord op data) s =
        .next { s with phase := .answering s.lat.nextExtra ⟨.raised c, 0⟩ } ∧
      (c.code = 1 ∧ op.toNat ≤ 4 ∨ c.code = 2 ∧ 5 ≤ op.toNat) ∧
      ∀ before after : List CommandWord, ∃ (t : State) (rs rs' : List Response),
        runCommands (before ++ after) { s with phase := .ready } = some (t, rs ++ rs') ∧
        runCommands (before ++ commandWord op data :: after) { s with phase := .ready } =
          some (t, rs ++ ⟨.raised c, 0⟩ :: rs') ∧
        rs.length = before.length

/-! ### What a command leaves alone -/

/-- 10_state.md sections 2 and 3: every command completes; none writes the auxiliary slot, and the three declared operations
write no state word. -/
def Obligations.CommandsLeaveTheRestAlone : Prop :=
  ∀ (i : Instr) (s : State), ∃ t : State,
    exec i s = .next t ∧ t.aux = s.aux ∧ t.lat = s.lat ∧ t.inputs = s.inputs ∧
    (i = .nextU32 ∨ i = .nextF32 ∨ i = .nextF64 → t.gen = s.gen)

/-- 10_state.md section 3: no response, no acceptance and no state word depends on the auxiliary slot, over any number of
clock edges. -/
def Obligations.AuxiliarySlotIsUnobservable : Prop :=
  ∀ (k : Nat) (s : State) (a : AuxSlot), ∃ (t t' : State) (tr : Traffic),
    observe k s = some (t, tr) ∧ observe k { s with aux := a } = some (t', tr) ∧
    t.gen = t'.gen ∧ t.phase = t'.phase

/-- 70_reset_and_hazards.md section 5: at the level of commands nothing depends on the latencies. -/
def Obligations.ResponsesDoNotDependOnLatency : Prop :=
  ∀ (cs : List CommandWord) (s : State) (l : Latencies), ∃ (t t' : State) (rs : List Response),
    runCommands cs s = some (t, rs) ∧ runCommands cs { s with lat := l } = some (t', rs) ∧ t.gen = t'.gen

/-! ### The step, the handshake and reset -/

/-- 30_encoding.md sections 2, 4 and 6, 20_memory.md section 4 and 70_reset_and_hazards.md section 5: when the block is ready, no
reset is shown and a command is presented, the step takes the edge off the inputs and runs the instruction the word decodes to,
or takes the exception of a reserved opcode (that the words change at the edge of the transfer is log entry 7; that a reserved
opcode answers after `LAT_NEXT` cycles is log entry 10). -/
def Obligations.StepRunsThePresentedCommand : Prop :=
  ∀ (s : State) (e : Edge) (es : List Edge) (cw : CommandWord),
    s.phase = .ready → s.inputs = e :: es → e.pins.rst = false → e.pins.cmdValid = true →
    e.pins.cmdOp = cw.extractLsb' 64 4 → e.pins.cmdData = cw.extractLsb' 0 64 →
    (∀ i : Instr, decode cw = .ok i → step s = exec i { s with inputs := es }) ∧
    (∀ op : Opcode, decode cw = .error (.reservedOpcode op) →
      step s = .next { s with
        inputs := es
        phase := .answering s.lat.nextExtra ⟨.raised .reservedOpcode, 0⟩ })

/-- 30_encoding.md section 6, in the model's own terms (log entry 6): from any state, the step after `withFetchWord` runs the
command word given. -/
def Obligations.FetchWordIsRunNext : Prop :=
  ∀ (s : State) (nbits w : Nat) (i : Instr), decodeTableWord nbits w = some i →
    step (s.withFetchWord nbits w) = exec i { s with phase := .ready }

/-- 00_scope.md section 5: one next state for every state, and the state words change only at a reset edge or at one that
transfers an `initialize` or a `next_u64` (that they change at the edge of the transfer is log entry 7). -/
def Obligations.StepIsTotalAndOnlyCommandsWrite : Prop :=
  ∀ s : State, ∃ t : State, step s = .next t ∧ t.lat = s.lat ∧ t.inputs = s.inputs.tail ∧
    ((nextEdge s).pins.rst = false → t.aux = s.aux) ∧
    ((nextEdge s).pins.rst = false →
      (∀ cw, s.accepts = some cw → opcodeField cw ≠ 0 ∧ opcodeField cw ≠ 1) → t.gen = s.gen)

/-- R200, R211: at an edge with `rst = 1`, in any state, a command in flight is gone and no response is given for it, the
words take whatever values the open parameters have at that edge, and neither `cmd_ready` nor `rsp_valid` is 1 in the next
cycle; the first edge with `rst = 0` makes the block ready and takes no command, so the second is the earliest to take one. -/
def Obligations.ResetTakesEffectAtEveryEdge : Prop :=
  ∀ (s : State) (e e' : Edge) (es : List Edge), s.inputs = e :: e' :: es → e.pins.rst = true →
    s.accepts = none ∧ s.delivers = none ∧
    ∃ t : State, step s = .next t ∧
      t.gen = e.sReset ∧ t.aux = e.aReset ∧ t.lat = s.lat ∧ t.inputs = e' :: es ∧
      t.cmdReady = false ∧ t.rspValid = false ∧ t.pending = none ∧
      (e'.pins.rst = false → t.accepts = none ∧ ∃ u : State, step t = .next u ∧
        u = { t with phase := .ready, inputs := es } ∧ u.cmdReady = true ∧ u.rspValid = false)

/-- 10_state.md section 7 and 70_reset_and_hazards.md section 1: after a reset, whatever `S_RESET` and `A_RESET` are, the words
hold them, nothing is in flight, and the block is neither ready nor answering. -/
def Obligations.ResetLeavesNothingInFlight : Prop :=
  ∀ (g : GenState) (a : AuxSlot) (l : Latencies),
    (State.resetWith g a l).gen = g ∧ (State.resetWith g a l).aux = a ∧
    (State.resetWith g a l).cmdReady = false ∧ (State.resetWith g a l).rspValid = false ∧
    (State.resetWith g a l).pending = none ∧ core.reset.pending = none ∧ core.reset.cmdReady = false

/-- R210: at an edge without reset at which no command is transferred and none is in progress, every state word keeps its
value, over any number of such edges, and the time passed has no effect on the result of any command after it. -/
def Obligations.IdleBlockHoldsItsState : Prop :=
  ∀ (k : Nat) (s : State) (t : State) (tr : Traffic),
    s.pending = none → s.resetFree k = true → observe k s = some (t, tr) → tr.commands = [] →
      t.gen = s.gen ∧ t.aux = s.aux ∧ t.pending = none ∧ tr.responses = [] ∧
      ∀ cs : List CommandWord, ∃ (u v : State) (rs : List Response),
        runCommands cs s = some (u, rs) ∧ runCommands cs t = some (v, rs) ∧ u.gen = v.gen

/-- 70_reset_and_hazards.md section 4: a command is taken only when nothing is in flight; its response is then in flight and
the block is not ready; the response on the pins is held unchanged, and the block not ready, until the host takes it. -/
def Obligations.HandshakeHoldsTheResponse : Prop :=
  (∀ (s : State) (cw : CommandWord), s.accepts = some cw → s.pending = none ∧
    ∃ (t : State) (r : Response), step s = .next t ∧ t.pending = some r ∧ t.cmdReady = false) ∧
  (∀ (k : Nat) (s : State) (r : Response), s.rsp = some r → s.resetFree k = true →
    ((s.inputs.take k).all fun e => !e.pins.rspReady) = true →
    ∃ (t : State) (tr : Traffic), observe k s = some (t, tr) ∧
      t.rsp = some r ∧ t.cmdReady = false ∧ tr.commands = [] ∧ tr.responses = []) ∧
  (∀ (s : State) (r : Response), s.pending = some r → (nextEdge s).pins.rst = false →
    ∃ t : State, step s = .next t ∧
      (s.delivers = none → t.pending = some r ∧ t.cmdReady = false) ∧
      (∀ r', s.delivers = some r' → r' = r ∧ t.pending = none))

/-- 70_reset_and_hazards.md section 5: the response is on the pins exactly `LAT_INIT` cycles after the transfer of an
`initialize` and `LAT_NEXT` cycles after that of any other command, and not before (how the cycles are counted is log entry
10). -/
def Obligations.ResponseComesAfterTheLatency : Prop :=
  ∀ (s : State) (cw : CommandWord) (n : Nat), s.accepts = some cw →
    n = (if opcodeField cw = 0 then s.lat.latInit else s.lat.latNext) → s.resetFree n = true →
    (∀ m : Nat, 1 ≤ m → m < n → ∃ (t : State) (tr : Traffic),
      observe m s = some (t, tr) ∧ t.rspValid = false ∧ t.cmdReady = false) ∧
    ∃ (t u : State) (tr : Traffic), observe n s = some (t, tr) ∧
      executeCommand cw (pastEdge s) = .next u ∧ t.rspValid = true ∧ t.rsp = u.pending ∧ t.gen = u.gen

/-- 70_reset_and_hazards.md sections 1 and 4: from every state, a host that keeps presenting one command and takes responses at
once has the answer in flight delivered, if there is one, and its own command taken: at the first edge if the block is ready, at
the second after a reset, and otherwise within the cycles the answer still needs and two more (that the block is ready at once
after a response is taken is log entry 8). -/
def Obligations.PresentedCommandIsTaken : Prop :=
  ∀ (s : State) (n : Nat) (cw : CommandWord),
    n = (match s.phase with
      | .starting => 2
      | .ready => 1
      | .answering wait _ => wait + 2) →
    n ≤ s.inputs.length →
    (∀ e ∈ s.inputs.take n,
      e.pins.rst = false ∧ e.pins.rspReady = true ∧ e.pins.cmdValid = true ∧ e.pins.command = cw) →
    ∃ (t : State) (tr : Traffic), observe n s = some (t, tr) ∧
      tr.commands = [cw] ∧ tr.responses = s.pending.toList

/-- 70_reset_and_hazards.md section 4: if the host keeps its promise to hold a command stable until it is taken, the first
command taken is the one it first presented. -/
def Obligations.HeldCommandIsTheOneTaken : Prop :=
  ∀ (k : Nat) (s : State), hostKeepsCommands k s = true → s.resetFree k = true → k ≤ s.inputs.length →
    ((s.inputs.take k).all fun e => e.pins.cmdValid) = true →
    ∃ (t : State) (tr : Traffic), observe k s = some (t, tr) ∧
      (∀ cw, tr.commands.head? = some cw → cw = (nextEdge s).pins.command)

/-- 70_reset_and_hazards.md sections 4 and 6 and 20_memory.md section 4: whatever the host does at the pins, over any number
of edges without reset, the commands transferred, run one after another as single atomic steps, give the state words the block
holds, and their responses are those transferred, in order, and the one still in flight (that the words of a command in flight
have already changed is log entry 7). -/
def Obligations.PinRunsRefineCommandRuns : Prop :=
  ∀ (k : Nat) (s : State), s.pending = none → s.resetFree k = true →
    ∃ (t u : State) (tr : Traffic) (rs : List Response),
      observe k s = some (t, tr) ∧ runCommands tr.commands s = some (u, rs) ∧
      t.gen = u.gen ∧ t.aux = u.aux ∧ rs = tr.responses ++ t.pending.toList

/-- 60_exceptions.md section 5: a step of one instance changes no other, is that instance's own step, and steps of two
instances may be taken in either order (that several instances are a list of states stepped one at a time is the model's choice,
log entry 17). -/
def Obligations.InstancesAreIndependent : Prop :=
  (∀ (sys : List State) (k : Nat) (s : State), sys[k]? = some s → ∃ (t : State) (sys' : List State),
    step s = .next t ∧ stepAt k sys = .next sys' ∧ sys'[k]? = some t ∧ sys'.length = sys.length ∧
    ∀ j, j ≠ k → sys'[j]? = sys[j]?) ∧
  (∀ (sys : List State) (j k : Nat), j ≠ k → ∃ a b c : List State,
    stepAt j sys = .next a ∧ stepAt k a = .next c ∧ stepAt k sys = .next b ∧ stepAt j b = .next c)

/-! ### Invariants and safe runs -/

/-- 30_encoding.md section 3 and 70_reset_and_hazards.md section 5: what is in flight stays a response the block can give, no
further from the pins than a latency allows, at every step from every such state. -/
def Obligations.StepKeepsThePortLegal : Prop :=
  ∀ s : State, s.portLegal = true → ∃ t : State, step s = .next t ∧ t.portLegal = true

/-- The port invariant holds after reset, whatever the open parameters are. -/
def Obligations.ResetPortIsLegal : Prop :=
  (∀ (g : GenState) (a : AuxSlot) (l : Latencies), (State.resetWith g a l).portLegal = true) ∧
  State.reset.portLegal = true

/-- 10_state.md section 4: a state that is not all zero, on a platform whose resets never make it so, steps to such a state. -/
def Obligations.StepKeepsTheStateHealthy : Prop :=
  ∀ s : State, s.healthy = true → ∃ t : State, step s = .next t ∧ t.healthy = true

/-- The invariant holds after every reset to words that are not all zero. -/
def Obligations.NonzeroResetIsHealthy : Prop :=
  ∀ (g : GenState) (a : AuxSlot) (l : Latencies), g ≠ ⟨0, 0, 0, 0⟩ → (State.resetWith g a l).healthy = true

/-- 10_state.md section 4: once any `initialize` has executed, the state is never all zero again, whatever commands come
before and after it and whatever state they start from. -/
def Obligations.OnceSeededNeverAllZero : Prop :=
  ∀ (seed : Word) (before after : List CommandWord) (s : State), ∃ (t : State) (rs : List Response),
    runCommands (before ++ commandWord 0 seed :: after) s = some (t, rs) ∧ t.gen ≠ ⟨0, 0, 0, 0⟩

/-- 70_reset_and_hazards.md sections 2 and 3: when the first `initialize` comes before the first `next_u64`, the responses do
not depend on anything the state held before, `S_RESET` included, and no number is drawn from the all-zero state. -/
def Obligations.SeedingFirstHidesTheResetState : Prop :=
  (∀ (cs : List CommandWord) (s t : State), seedsFirst cs = true → ∃ (u v : State) (rs : List Response),
    runCommands cs s = some (u, rs) ∧ runCommands cs t = some (v, rs)) ∧
  (∀ (before after : List CommandWord) (data : Word) (s : State),
    seedsFirst (before ++ commandWord 1 data :: after) = true → ∃ (t : State) (rs : List Response),
      runCommands before s = some (t, rs) ∧ t.gen.degenerate = false)
end

