-- ==== Sys2Proof/Laws/Arithmetic.lean ====
section
/-!
SUPPORT. The `BitVec` operators the model uses have the meanings of spec/40_arithmetic.md R91 to R97, in those rules' own
words, and the small lemmas of the rotation and of the inverses of the shift steps.
-/

namespace Sys2Proof.Machine

/-- R91: the sum of the integers, modulo 2^64. -/
theorem add_is_modular (a b : Word) : (a + b).toNat = (a.toNat + b.toNat) % 2 ^ 64 := by simp

/-- R92: the low 64 bits of the product of the integers. -/
theorem mul_is_modular (a b : Word) : (a * b).toNat = (a.toNat * b.toNat) % 2 ^ 64 := by simp

/-- R93: exclusive or bit by bit. -/
theorem xor_is_bitwise (a b : Word) (i : Nat) : (a ^^^ b).getLsbD i = (a.getLsbD i ^^ b.getLsbD i) := by simp

/-- R94: the right shift is logical, a division that rounds down. -/
theorem shiftRight_is_division (a : Word) (k : Nat) : (a >>> k).toNat = a.toNat / 2 ^ k := by
  simp [Nat.shiftRight_eq_div_pow]

/-- R95: the left shift discards what is shifted out. -/
theorem shiftLeft_is_product (a : Word) (k : Nat) : (a <<< k).toNat = (a.toNat * 2 ^ k) % 2 ^ 64 := by
  simp [Nat.shiftLeft_eq]

/-- R97: rotating zero gives zero. -/
@[simp] theorem rotl_zero (k : Nat) : rotl 0 k = 0 := by simp [rotl]

/-- R97, bit by bit: below the rotation amount a bit comes from the top, above it from `k` places down. -/
theorem getLsbD_rotl (x : Word) (k i : Nat) :
    (rotl x k).getLsbD i =
      ((decide (i < 64) && !decide (i < k) && x.getLsbD (i - k)) || x.getLsbD (64 - k + i)) := by
  simp [rotl]

/-! ### The inverses of the shift steps -/

/-- The copies taken reach past the word (R100). -/
theorem width_le_copies (k : Nat) (hk : 1 ≤ k) : 64 ≤ (63 / k + 1) * k := by
  have := Nat.lt_div_mul_add (a := 63) (b := k) (by omega)
  rw [Nat.add_mul]
  omega

/-- The copies of `x ^ (x >> k)`, shifted right by the multiples of `k`, cancel but for the first and the last (R100). -/
theorem xor_copies_shiftRight (k n : Nat) (x : Word) :
    (List.range n).foldl (fun z j => z ^^^ ((x ^^^ (x >>> k)) >>> (j * k))) 0 = x ^^^ (x >>> (n * k)) := by
  induction n with
  | zero => simp
  | succ n ih =>
    have hk : (n + 1) * k = k + n * k := by ring
    rw [List.range_succ, List.foldl_append, ih, List.foldl_cons, List.foldl_nil, BitVec.ushiftRight_xor_distrib,
      ← BitVec.shiftRight_add, hk, BitVec.xor_assoc, ← BitVec.xor_assoc (x >>> (n * k)), BitVec.xor_self, BitVec.zero_xor]

/-- The same for the left shift (R100). -/
theorem xor_copies_shiftLeft (k n : Nat) (x : Word) :
    (List.range n).foldl (fun z j => z ^^^ ((x ^^^ (x <<< k)) <<< (j * k))) 0 = x ^^^ (x <<< (n * k)) := by
  induction n with
  | zero => simp
  | succ n ih =>
    have hk : (n + 1) * k = k + n * k := by ring
    rw [List.range_succ, List.foldl_append, ih, List.foldl_cons, List.foldl_nil, BitVec.shiftLeft_xor_distrib,
      ← BitVec.shiftLeft_add, hk, BitVec.xor_assoc, ← BitVec.xor_assoc (x <<< (n * k)), BitVec.xor_self, BitVec.zero_xor]

@[simp] theorem undoShiftRight_zero (k : Nat) : undoShiftRight k 0 = 0 := by simp [undoShiftRight]

@[simp] theorem undoShiftLeft_zero (k : Nat) : undoShiftLeft k 0 = 0 := by simp [undoShiftLeft]

end Sys2Proof.Machine
end

