-- ==== Sys2Proof/Laws/Assembler.lean ====
section
/-!
SUPPORT. The text the assembler reads: digits written are the digits read, and how a line falls into its words
(spec/30_encoding.md R69).
-/

namespace Sys2Proof.Machine

theorem hexDigit_hexChars : ∀ d : Fin 16, hexDigit (hexChars.getD d.val '0') = some d.val := by decide

/-- A character that neither ends a word nor begins a comment. -/
def plainChar (c : Char) : Bool := !isBlank c && c != ';'

theorem plainChar_hexChars : ∀ d : Fin 16, plainChar (hexChars.getD d.val '0') = true := by decide

@[simp] theorem writeHex_length (k n : Nat) : (writeHex k n).length = k := by
  induction k generalizing n with
  | zero => rfl
  | succ k ih => simp [writeHex, ih]

theorem readDigits_append (base : Nat) (digit : Char → Option Nat) (acc : Nat) (xs ys : List Char) :
    readDigits base digit acc (xs ++ ys) = (readDigits base digit acc xs).bind fun a => readDigits base digit a ys := by
  induction xs generalizing acc with
  | nil => rfl
  | cons x xs ih =>
    simp only [List.cons_append, readDigits]
    cases digit x <;> simp [ih]

/-- Reading the digits just written gives their number. -/
theorem readDigits_writeHex (k n acc : Nat) :
    readDigits 16 hexDigit acc (writeHex k n) = some (acc * 16 ^ k + n % 16 ^ k) := by
  induction k generalizing n acc with
  | zero => simp [writeHex, readDigits, Nat.mod_one]
  | succ k ih =>
    have hd := hexDigit_hexChars ⟨n % 16, Nat.mod_lt _ (by norm_num)⟩
    simp only at hd
    have hm : n % 16 ^ (k + 1) = n % 16 + 16 * (n / 16 % 16 ^ k) := by
      rw [Nat.pow_succ, Nat.mul_comm, Nat.mod_mul]
    simp only [writeHex, readDigits_append, ih, Option.bind_some, readDigits, hd, hm, Option.some.injEq]
    ring

/-- A hexadecimal literal of `k` digits, read where at most `most` are allowed. -/
theorem readHex_writeHex (most k n : Nat) (hk : 1 ≤ k) :
    readHex most (writeHex k n) = if k ≤ most then .ok (n % 16 ^ k) else .error .doesNotFit := by
  have hne : (writeHex k n).isEmpty = false := by
    have := writeHex_length k n
    cases h : writeHex k n
    · simp [h] at this; omega
    · rfl
  simp [readHex, hne, readDigits_writeHex]

theorem plainChar_of_mem_writeHex (k n : Nat) : ∀ c ∈ writeHex k n, plainChar c = true := by
  induction k generalizing n with
  | zero => simp [writeHex]
  | succ k ih =>
    intro c hc
    rcases List.mem_append.1 hc with h | h
    · exact ih _ _ h
    · rw [List.mem_singleton.1 h]
      exact plainChar_hexChars ⟨n % 16, Nat.mod_lt _ (by norm_num)⟩

theorem plainChar_of_mem_writeLiteral (k n : Nat) : ∀ c ∈ writeLiteral k n, plainChar c = true := by
  intro c hc
  simp only [writeLiteral, List.mem_cons] at hc
  rcases hc with rfl | rfl | h
  · decide
  · decide
  · exact plainChar_of_mem_writeHex _ _ _ h

theorem decimalDigit_hexChars : ∀ d : Fin 10, decimalDigit (hexChars.getD d.val '0') = some d.val := by decide

theorem plainChar_decimal : ∀ d : Fin 10, plainChar (hexChars.getD d.val '0') = true := by decide

theorem plainChar_of_mem_writeDecimal (ds : List (Fin 10)) : ∀ c ∈ writeDecimal ds, plainChar c = true := by
  intro c hc
  obtain ⟨d, -, rfl⟩ := List.mem_map.1 hc
  exact plainChar_decimal d

/-- No decimal number is taken for a hexadecimal one. -/
theorem x_not_mem_writeDecimal (ds : List (Fin 10)) : 'x' ∉ writeDecimal ds := by
  have h : ∀ d : Fin 10, hexChars.getD d.val '0' ≠ 'x' := by decide
  intro hx
  obtain ⟨d, -, hd⟩ := List.mem_map.1 hx
  exact h d hd

/-- Reading the decimal digits just written gives their number. -/
theorem readDigits_writeDecimal (ds : List (Fin 10)) (acc : Nat) :
    readDigits 10 decimalDigit acc (writeDecimal ds) =
      some (Nat.ofDigits 10 (ds.map Fin.val).reverse + acc * 10 ^ ds.length) := by
  induction ds generalizing acc with
  | nil => simp [writeDecimal, readDigits]
  | cons d ds ih =>
    have hd := ih (acc * 10 + d)
    simp only [writeDecimal] at hd
    simp only [writeDecimal, List.map_cons, readDigits, decimalDigit_hexChars, hd, List.reverse_cons, Nat.ofDigits_append,
      List.length_cons, Nat.ofDigits_singleton, List.length_map, List.length_reverse, Option.some.injEq]
    ring

/-- The mnemonics are words. -/
theorem plainChar_of_mem_mnemonic :
    ∀ m ∈ [mnemonicInitialize, mnemonicNextU64, mnemonicNextU32, mnemonicNextF32, mnemonicNextF64, mnemonicWord],
      m ≠ [] ∧ ∀ c ∈ m, plainChar c = true := by
  simp [mnemonicInitialize, mnemonicNextU64, mnemonicNextU32, mnemonicNextF32, mnemonicNextF64, mnemonicWord, plainChar,
    isBlank]

/-- The characters of a word are taken into it. -/
theorem wordsFrom_plain (w rest cur : List Char) (h : ∀ c ∈ w, plainChar c = true) :
    wordsFrom cur (w ++ rest) = wordsFrom (cur ++ w) rest := by
  induction w generalizing cur with
  | nil => simp
  | cons c w ih =>
    have hc : isBlank c = false := by have := h c (by simp); simp_all [plainChar]
    simp only [List.cons_append, wordsFrom, hc, Bool.false_eq_true, if_false]
    rw [ih _ fun c hc => h c (by simp [hc])]
    simp

/-- No comment begins in a word. -/
theorem dropComment_plain (w rest : List Char) (h : ∀ c ∈ w, plainChar c = true) :
    dropComment (w ++ rest) = w ++ dropComment rest := by
  unfold dropComment
  induction w with
  | nil => rfl
  | cons c w ih =>
    have hc : (c != ';') = true := by have := h c (by simp); simp_all [plainChar]
    simp [hc, ih fun c hc => h c (by simp [hc])]

end Sys2Proof.Machine
end

