-- ==== Sys2Proof/Laws/Decode.lean ====
section
/-!
SUPPORT. The fields of a command word, and what the decoder gives for each opcode: other proofs cite these and do not unfold
the bit fields (spec/30_encoding.md R61 to R68).
-/

namespace Sys2Proof

/-- A bit of a command word: the data field's below bit 64, the opcode's above (R61). -/
theorem getLsbD_commandWord (op : Opcode) (d : Word) (i : Nat) :
    (commandWord op d).getLsbD i = if i < 64 then d.getLsbD i else op.getLsbD (i - 64) := by
  unfold commandWord
  exact BitVec.getLsbD_append

@[simp] theorem opcodeField_commandWord (op : Opcode) (d : Word) : opcodeField (commandWord op d) = op := by
  apply BitVec.eq_of_getLsbD_eq
  intro i hi
  simp [opcodeField, getLsbD_commandWord, hi]

@[simp] theorem dataField_commandWord (op : Opcode) (d : Word) : dataField (commandWord op d) = d := by
  apply BitVec.eq_of_getLsbD_eq
  intro i hi
  simp [dataField, getLsbD_commandWord, hi]

/-- A word is made of its two fields (R61). -/
@[simp] theorem commandWord_fields (cw : CommandWord) : commandWord (opcodeField cw) (dataField cw) = cw := by
  apply BitVec.eq_of_getLsbD_eq
  intro i hi
  rw [getLsbD_commandWord]
  unfold opcodeField dataField
  by_cases h : i < 64
  · simp [h]
  · have h4 : i - 64 < 4 := by omega
    have h64 : 64 + (i - 64) = i := by omega
    simp [h, h4, h64]

/-- The number a command word is (R61). -/
theorem commandWord_toNat (op : Opcode) (d : Word) : (commandWord op d).toNat = op.toNat * 2 ^ 64 + d.toNat := by
  unfold commandWord
  rw [BitVec.toNat_append, ← Nat.shiftLeft_add_eq_or_of_lt d.isLt, Nat.shiftLeft_eq]

@[simp] theorem opcodeField_encode (i : Instr) : opcodeField (encode i) = i.opcode := opcodeField_commandWord _ _

@[simp] theorem dataField_encode (i : Instr) : dataField (encode i) = i.data := dataField_commandWord _ _

/-! ### The decoder, opcode by opcode -/

section
variable {cw : CommandWord}

theorem decode_of_opcode_zero (h : opcodeField cw = 0) : decode cw = .ok (.initializeWith (dataField cw)) := by
  simp [decode, h]

theorem decode_of_opcode_one (h : opcodeField cw = 1) : decode cw = .ok .nextU64 := by simp [decode, h]

theorem decode_of_opcode_two (h : opcodeField cw = 2) : decode cw = .ok .nextU32 := by simp [decode, h]

theorem decode_of_opcode_three (h : opcodeField cw = 3) : decode cw = .ok .nextF32 := by simp [decode, h]

theorem decode_of_opcode_four (h : opcodeField cw = 4) : decode cw = .ok .nextF64 := by simp [decode, h]

theorem decode_of_opcode_reserved (h : 5 ≤ (opcodeField cw).toNat) :
    decode cw = .error (.reservedOpcode (opcodeField cw)) := by
  unfold decode
  split <;> first | omega | rfl

end

/-- Every opcode is one of the five operations' or reserved (R62, R66): the case split of a proof about any command. -/
theorem opcode_cases (op : Opcode) : op = 0 ∨ op = 1 ∨ op = 2 ∨ op = 3 ∨ op = 4 ∨ 5 ≤ op.toNat := by
  revert op
  decide

/-- What the decoder can give (R68). -/
theorem decode_cases (cw : CommandWord) :
    (opcodeField cw = 0 ∧ decode cw = .ok (.initializeWith (dataField cw))) ∨
    (opcodeField cw = 1 ∧ decode cw = .ok .nextU64) ∨
    (opcodeField cw = 2 ∧ decode cw = .ok .nextU32) ∨
    (opcodeField cw = 3 ∧ decode cw = .ok .nextF32) ∨
    (opcodeField cw = 4 ∧ decode cw = .ok .nextF64) ∨
    (5 ≤ (opcodeField cw).toNat ∧ decode cw = .error (.reservedOpcode (opcodeField cw))) := by
  rcases opcode_cases (opcodeField cw) with h | h | h | h | h | h
  · exact .inl ⟨h, decode_of_opcode_zero h⟩
  · exact .inr (.inl ⟨h, decode_of_opcode_one h⟩)
  · exact .inr (.inr (.inl ⟨h, decode_of_opcode_two h⟩))
  · exact .inr (.inr (.inr (.inl ⟨h, decode_of_opcode_three h⟩)))
  · exact .inr (.inr (.inr (.inr (.inl ⟨h, decode_of_opcode_four h⟩))))
  · exact .inr (.inr (.inr (.inr (.inr ⟨h, decode_of_opcode_reserved h⟩))))

end Sys2Proof
end

