-- ==== Sys2Proof/Laws/State.lean ====
section
/-!
SUPPORT. One lemma for each field of each update of State and GenState, so that no later proof unfolds an update.
-/

namespace Sys2Proof.Machine

/-! ### `State.respond` -/

section
variable (s : State) (gen : GenState) (extra : Nat) (r : Response)

@[simp] theorem State.respond_gen : (s.respond gen extra r).gen = gen := rfl
@[simp] theorem State.respond_aux : (s.respond gen extra r).aux = s.aux := rfl
@[simp] theorem State.respond_phase : (s.respond gen extra r).phase = .answering extra r := rfl
@[simp] theorem State.respond_lat : (s.respond gen extra r).lat = s.lat := rfl
@[simp] theorem State.respond_inputs : (s.respond gen extra r).inputs = s.inputs := rfl

end

/-! ### `State.withPhase` -/

section
variable (s : State) (p : Phase)

@[simp] theorem State.withPhase_gen : (s.withPhase p).gen = s.gen := rfl
@[simp] theorem State.withPhase_aux : (s.withPhase p).aux = s.aux := rfl
@[simp] theorem State.withPhase_phase : (s.withPhase p).phase = p := rfl
@[simp] theorem State.withPhase_lat : (s.withPhase p).lat = s.lat := rfl
@[simp] theorem State.withPhase_inputs : (s.withPhase p).inputs = s.inputs := rfl

end

/-! ### `resetEdge`, `pastEdge`, `presentNext` -/

section
variable (e : Edge) (s : State) (cw : CommandWord)

@[simp] theorem resetEdge_gen : (resetEdge e s).gen = e.sReset := rfl
@[simp] theorem resetEdge_aux : (resetEdge e s).aux = e.aReset := rfl
@[simp] theorem resetEdge_phase : (resetEdge e s).phase = .starting := rfl
@[simp] theorem resetEdge_lat : (resetEdge e s).lat = s.lat := rfl
@[simp] theorem resetEdge_inputs : (resetEdge e s).inputs = s.inputs := rfl

@[simp] theorem pastEdge_gen : (pastEdge s).gen = s.gen := rfl
@[simp] theorem pastEdge_aux : (pastEdge s).aux = s.aux := rfl
@[simp] theorem pastEdge_phase : (pastEdge s).phase = s.phase := rfl
@[simp] theorem pastEdge_lat : (pastEdge s).lat = s.lat := rfl
@[simp] theorem pastEdge_inputs : (pastEdge s).inputs = s.inputs.tail := rfl

@[simp] theorem presentNext_gen : (presentNext cw s).gen = s.gen := rfl
@[simp] theorem presentNext_aux : (presentNext cw s).aux = s.aux := rfl
@[simp] theorem presentNext_phase : (presentNext cw s).phase = .ready := rfl
@[simp] theorem presentNext_lat : (presentNext cw s).lat = s.lat := rfl

end

/-! ### `State.resetWith` -/

section
variable (g : GenState) (a : AuxSlot) (l : Latencies)

@[simp] theorem State.resetWith_gen : (State.resetWith g a l).gen = g := rfl
@[simp] theorem State.resetWith_aux : (State.resetWith g a l).aux = a := rfl
@[simp] theorem State.resetWith_phase : (State.resetWith g a l).phase = .starting := rfl
@[simp] theorem State.resetWith_lat : (State.resetWith g a l).lat = l := rfl
@[simp] theorem State.resetWith_inputs : (State.resetWith g a l).inputs = [] := rfl

end

/-! ### The state words -/

section
variable (g : GenState) (v : Word)

@[simp] theorem GenState.get_zero : g.get 0 = g.s0 := rfl
@[simp] theorem GenState.get_one : g.get 1 = g.s1 := rfl
@[simp] theorem GenState.get_two : g.get 2 = g.s2 := rfl
@[simp] theorem GenState.get_three : g.get 3 = g.s3 := rfl

@[simp] theorem GenState.set_zero : g.set 0 v = ⟨v, g.s1, g.s2, g.s3⟩ := rfl
@[simp] theorem GenState.set_one : g.set 1 v = ⟨g.s0, v, g.s2, g.s3⟩ := rfl
@[simp] theorem GenState.set_two : g.set 2 v = ⟨g.s0, g.s1, v, g.s3⟩ := rfl
@[simp] theorem GenState.set_three : g.set 3 v = ⟨g.s0, g.s1, g.s2, v⟩ := rfl

end

/-- Reading the word just written (R13). -/
theorem GenState.get_set_same (g : GenState) (i : Fin 4) (v : Word) : (g.set i v).get i = v := by
  fin_cases i <;> rfl

/-- "A write of one word changes no other word" (R23). -/
theorem GenState.get_set_other (g : GenState) (i j : Fin 4) (v : Word) (h : j ≠ i) :
    (g.set i v).get j = g.get j := by
  fin_cases i <;> fin_cases j <;> first | rfl | exact absurd rfl h

end Sys2Proof.Machine
end

