-- ==== Sys2Proof/Laws/Exec.lean ====
section
/-!
SUPPORT. What executing a command can do, said once: it always answers a next state, which differs from the one before in the
state words and the handshake alone. Also what a clock edge can do, phase by phase, and the runs' recursion.
-/

namespace Sys2Proof.Machine

/-! ### Exceptions and commands -/

/-- Taking an exception (R175). -/
theorem raise_eq (c : Cause) (s : State) :
    raise c s = .next (s.respond s.gen s.lat.nextExtra (.raising c)) := rfl

theorem exec_initializeWith (seed : Word) (s : State) :
    exec (.initializeWith seed) s = .next (s.respond (expand seed s.gen) s.lat.initExtra (.okWith 0)) := rfl

theorem exec_nextU64 (s : State) :
    exec .nextU64 s = .next (s.respond (update s.gen) s.lat.nextExtra (.okWith (output s.gen))) := rfl

/-- The three declared operations take one and the same exception (R160, R161, R162). -/
theorem exec_declared (i : Instr) (s : State) (h : i = .nextU32 ∨ i = .nextF32 ∨ i = .nextF64) :
    exec i s = .next (s.respond s.gen s.lat.nextExtra (.raising .unimplemented)) := by
  rcases h with rfl | rfl | rfl <;> rfl

/-- The words after a command: a function of the command and the words alone (R16). -/
def wordsAfter (cw : CommandWord) (g : GenState) : GenState :=
  match decode cw with
  | .ok (.initializeWith seed) => expand seed g
  | .ok .nextU64 => update g
  | .ok .nextU32 => g
  | .ok .nextF32 => g
  | .ok .nextF64 => g
  | .error _ => g

/-- The response to a command: a function of the command and the words alone (R16, R65). -/
def answerTo (cw : CommandWord) (g : GenState) : Response :=
  match decode cw with
  | .ok (.initializeWith _) => .okWith 0
  | .ok .nextU64 => .okWith (output g)
  | .ok .nextU32 => .raising .unimplemented
  | .ok .nextF32 => .raising .unimplemented
  | .ok .nextF64 => .raising .unimplemented
  | .error _ => .raising .reservedOpcode

/-- The cycles beyond the first that a command's response takes (R212). -/
def extraCycles (cw : CommandWord) (l : Latencies) : Nat :=
  match decode cw with
  | .ok (.initializeWith _) => l.initExtra
  | .ok .nextU64 => l.nextExtra
  | .ok .nextU32 => l.nextExtra
  | .ok .nextF32 => l.nextExtra
  | .ok .nextF64 => l.nextExtra
  | .error _ => l.nextExtra

/-- Everything executing a command word does (R16, R44): it is one atomic step, it never stops, and it changes only the state
words and the handshake. -/
theorem executeCommand_eq (cw : CommandWord) (s : State) :
    executeCommand cw s =
      .next (s.respond (wordsAfter cw s.gen) (extraCycles cw s.lat) (answerTo cw s.gen)) := by
  rcases decode_cases cw with ⟨-, h⟩ | ⟨-, h⟩ | ⟨-, h⟩ | ⟨-, h⟩ | ⟨-, h⟩ | ⟨-, h⟩ <;>
    simp only [executeCommand, wordsAfter, extraCycles, answerTo, h] <;> rfl

/-! ### One command with its response -/

theorem transact_eq (cw : CommandWord) (s : State) :
    transact cw s = some ({ s with phase := .ready, gen := wordsAfter cw s.gen }, answerTo cw s.gen) := by
  simp [transact, executeCommand_eq, State.pending, State.respond, State.withPhase]

theorem runCommands_cons (cw : CommandWord) (cs : List CommandWord) (s : State) :
    runCommands (cw :: cs) s =
      (runCommands cs { s with phase := .ready, gen := wordsAfter cw s.gen }).map fun (u, rs) =>
        (u, answerTo cw s.gen :: rs) := by
  simp [runCommands, transact_eq]

/-- The words after a list of commands (R213). -/
def wordsAfterAll (cs : List CommandWord) (g : GenState) : GenState := cs.foldl (fun g cw => wordsAfter cw g) g

/-- The responses to a list of commands, in order (R213). -/
def answersTo : List CommandWord → GenState → List Response
  | [], _ => []
  | cw :: cs, g => answerTo cw g :: answersTo cs (wordsAfter cw g)

@[simp] theorem wordsAfterAll_nil (g : GenState) : wordsAfterAll [] g = g := rfl

@[simp] theorem wordsAfterAll_cons (cw : CommandWord) (cs : List CommandWord) (g : GenState) :
    wordsAfterAll (cw :: cs) g = wordsAfterAll cs (wordsAfter cw g) := rfl

theorem wordsAfterAll_append (cs ds : List CommandWord) (g : GenState) :
    wordsAfterAll (cs ++ ds) g = wordsAfterAll ds (wordsAfterAll cs g) := List.foldl_append

@[simp] theorem answersTo_nil (g : GenState) : answersTo [] g = [] := rfl

@[simp] theorem answersTo_cons (cw : CommandWord) (cs : List CommandWord) (g : GenState) :
    answersTo (cw :: cs) g = answerTo cw g :: answersTo cs (wordsAfter cw g) := rfl

theorem answersTo_append (cs ds : List CommandWord) (g : GenState) :
    answersTo (cs ++ ds) g = answersTo cs g ++ answersTo ds (wordsAfterAll cs g) := by
  induction cs generalizing g with
  | nil => rfl
  | cons cw cs ih => simp [ih]

@[simp] theorem answersTo_length (cs : List CommandWord) (g : GenState) : (answersTo cs g).length = cs.length := by
  induction cs generalizing g with
  | nil => rfl
  | cons cw cs ih => simp [ih]

/-- Everything a run of commands does: it never stops, the words and the responses are functions of the commands and the
words alone, and it ends ready unless there was no command (R16, R213). -/
theorem runCommands_eq (cs : List CommandWord) (s : State) :
    runCommands cs s =
      some ({ s with phase := if cs.isEmpty then s.phase else .ready, gen := wordsAfterAll cs s.gen },
        answersTo cs s.gen) := by
  induction cs generalizing s with
  | nil => rfl
  | cons cw cs ih =>
    rw [runCommands_cons, ih]
    cases cs <;> rfl

/-! ### A clock edge, phase by phase -/

section
variable {s : State}

theorem step_of_reset (h : (nextEdge s).pins.rst = true) :
    step s = .next (resetEdge (nextEdge s) (pastEdge s)) := by
  simp [step, meetEdge, clockEdge, h]

theorem step_of_starting (hr : (nextEdge s).pins.rst = false) (hp : s.phase = .starting) :
    step s = .next ((pastEdge s).withPhase .ready) := by
  simp [step, meetEdge, clockEdge, runningEdge, hr, hp]

theorem step_of_idle (hr : (nextEdge s).pins.rst = false) (hp : s.phase = .ready)
    (hv : (nextEdge s).pins.cmdValid = false) : step s = .next (pastEdge s) := by
  simp [step, meetEdge, clockEdge, runningEdge, hr, hp, hv]

theorem step_of_transfer (hr : (nextEdge s).pins.rst = false) (hp : s.phase = .ready)
    (hv : (nextEdge s).pins.cmdValid = true) :
    step s = executeCommand (nextEdge s).pins.command (pastEdge s) := by
  simp [step, meetEdge, clockEdge, runningEdge, hr, hp, hv]

theorem step_of_waiting {n : Nat} {r : Response} (hr : (nextEdge s).pins.rst = false)
    (hp : s.phase = .answering (n + 1) r) : step s = .next ((pastEdge s).withPhase (.answering n r)) := by
  simp [step, meetEdge, clockEdge, runningEdge, hr, hp]

theorem step_of_taken {r : Response} (hr : (nextEdge s).pins.rst = false)
    (hp : s.phase = .answering 0 r) (hv : (nextEdge s).pins.rspReady = true) :
    step s = .next ((pastEdge s).withPhase .ready) := by
  simp [step, meetEdge, clockEdge, runningEdge, hr, hp, hv]

theorem step_of_held {r : Response} (hr : (nextEdge s).pins.rst = false)
    (hp : s.phase = .answering 0 r) (hv : (nextEdge s).pins.rspReady = false) :
    step s = .next (pastEdge s) := by
  simp [step, meetEdge, clockEdge, runningEdge, hr, hp, hv]

end

/-- Everything a clock edge can do: the case split of a proof about any step (R200, R209, R210). -/
theorem step_cases (s : State) :
    ((nextEdge s).pins.rst = true ∧ step s = .next (resetEdge (nextEdge s) (pastEdge s))) ∨
    ((nextEdge s).pins.rst = false ∧
      ((s.phase = .starting ∧ step s = .next ((pastEdge s).withPhase .ready)) ∨
       (s.phase = .ready ∧ (nextEdge s).pins.cmdValid = false ∧ step s = .next (pastEdge s)) ∨
       (s.phase = .ready ∧ (nextEdge s).pins.cmdValid = true ∧
          step s = executeCommand (nextEdge s).pins.command (pastEdge s)) ∨
       (∃ n r, s.phase = .answering (n + 1) r ∧ step s = .next ((pastEdge s).withPhase (.answering n r))) ∨
       (∃ r, s.phase = .answering 0 r ∧ (nextEdge s).pins.rspReady = true ∧
          step s = .next ((pastEdge s).withPhase .ready)) ∨
       (∃ r, s.phase = .answering 0 r ∧ (nextEdge s).pins.rspReady = false ∧ step s = .next (pastEdge s)))) := by
  rcases hr : (nextEdge s).pins.rst
  · refine .inr ⟨rfl, ?_⟩
    rcases hp : s.phase with _ | _ | ⟨_ | n, r⟩
    · exact .inl ⟨rfl, step_of_starting hr hp⟩
    · rcases hv : (nextEdge s).pins.cmdValid
      · exact .inr (.inl ⟨rfl, rfl, step_of_idle hr hp hv⟩)
      · exact .inr (.inr (.inl ⟨rfl, rfl, step_of_transfer hr hp hv⟩))
    · rcases hv : (nextEdge s).pins.rspReady
      · exact .inr (.inr (.inr (.inr (.inr ⟨r, rfl, rfl, step_of_held hr hp hv⟩))))
      · exact .inr (.inr (.inr (.inr (.inl ⟨r, rfl, rfl, step_of_taken hr hp hv⟩))))
    · exact .inr (.inr (.inr (.inl ⟨n, r, rfl, step_of_waiting hr hp⟩)))
  · exact .inl ⟨rfl, step_of_reset hr⟩

/-! ### Runs over clock edges -/

@[simp] theorem observe_zero (s : State) : observe 0 s = some (s, ⟨[], []⟩) := rfl

theorem observe_succ {s t : State} (k : Nat) (h : step s = .next t) :
    observe (k + 1) s =
      (observe k t).map fun (u, tr) =>
        (u, ⟨s.accepts.toList ++ tr.commands, s.delivers.toList ++ tr.responses⟩) := by
  simp [observe, h]

end Sys2Proof.Machine
end

