-- ==== Sys2Proof/Laws/PerInstr.lean ====
section
/-!
SUPPORT. Per-instruction laws. Family `CanonicalWord`: the canonical word of the instruction is one the opcode table's row of
its opcode accepts, and its two fields are the instruction's opcode and operand (spec/30_encoding.md R61, R62, R68).
-/

namespace Sys2Proof.Laws.CanonicalWord

/-- The statement, for one instruction. -/
def Statement (i : Instr) : Prop :=
  opcodeRow i.opcode ∈ opcodeRows ∧ opcodeField (encode i) = i.opcode ∧ dataField (encode i) = i.data

theorem initializeWith (seed : Word) : Statement (.initializeWith seed) :=
  ⟨by simp [opcodeRows, Instr.opcode], opcodeField_encode _, dataField_encode _⟩

theorem nextU64 : Statement .nextU64 := ⟨by simp [opcodeRows, Instr.opcode], opcodeField_encode _, dataField_encode _⟩

theorem nextU32 : Statement .nextU32 := ⟨by simp [opcodeRows, Instr.opcode], opcodeField_encode _, dataField_encode _⟩

theorem nextF32 : Statement .nextF32 := ⟨by simp [opcodeRows, Instr.opcode], opcodeField_encode _, dataField_encode _⟩

theorem nextF64 : Statement .nextF64 := ⟨by simp [opcodeRows, Instr.opcode], opcodeField_encode _, dataField_encode _⟩

end Sys2Proof.Laws.CanonicalWord
end

