-- ==== Sys2Proof/Laws/Runs.lean ====
section
/-!
SUPPORT. The small lemmas of the runs over clock edges: a step always answers and takes one edge off the inputs, what a
transfer needs, and how runs compose (spec/70_reset_and_hazards.md R200, R209, R212).
-/

namespace Sys2Proof.Machine

/-- A step answers a next state, with the edge taken off the inputs. -/
theorem step_next (s : State) : ∃ t, step s = .next t ∧ t.inputs = s.inputs.tail := by
  rcases step_cases s with ⟨-, h⟩ | ⟨-, ⟨-, h⟩ | ⟨-, -, h⟩ | ⟨-, -, h⟩ | ⟨_, _, -, h⟩ | ⟨_, -, -, h⟩ | ⟨_, -, -, h⟩⟩
  · exact ⟨_, h, rfl⟩
  · exact ⟨_, h, rfl⟩
  · exact ⟨_, h, rfl⟩
  · exact ⟨_, h.trans (executeCommand_eq _ _), rfl⟩
  · exact ⟨_, h, rfl⟩
  · exact ⟨_, h, rfl⟩
  · exact ⟨_, h, rfl⟩

/-- What the transfer of a command needs (R71). -/
theorem accepts_some {s : State} {cw : CommandWord} (h : s.accepts = some cw) :
    (nextEdge s).pins.rst = false ∧ s.phase = .ready ∧ (nextEdge s).pins.cmdValid = true ∧
      cw = (nextEdge s).pins.command := by
  simp only [State.accepts, Option.ite_none_right_eq_some, Bool.and_eq_true, Bool.not_eq_true', Option.some.injEq] at h
  obtain ⟨⟨⟨hr, hc⟩, hv⟩, hw⟩ := h
  refine ⟨hr, ?_, hv, hw.symm⟩
  unfold State.cmdReady at hc
  cases hp : s.phase <;> simp [hp] at hc ⊢

/-- The response on the pins is the one whose count has run out (R209). -/
theorem rsp_some {s : State} {r : Response} (h : s.rsp = some r) : s.phase = .answering 0 r := by
  unfold State.rsp at h
  split at h <;> simp_all

/-- The next of the edges that hold no reset holds none, and the rest hold none. -/
theorem resetFree_succ {k : Nat} {s : State} (h : s.resetFree (k + 1) = true) :
    (nextEdge s).pins.rst = false ∧ ∀ t : State, t.inputs = s.inputs.tail → t.resetFree k = true := by
  unfold State.resetFree at *
  cases hi : s.inputs with
  | nil => exact ⟨by simp [nextEdge, hi, Edge.ofPins, Pins.quiet], fun t ht => by simp [ht]⟩
  | cons e es =>
    simp only [hi, List.take_succ_cons, List.all_cons, Bool.and_eq_true, Bool.not_eq_true'] at h
    exact ⟨by simp [nextEdge, hi, h.1], fun t ht => by simpa [ht] using h.2⟩

/-- A command's latency, by its opcode (R212). -/
theorem extraCycles_succ (cw : CommandWord) (l : Latencies) :
    extraCycles cw l + 1 = if opcodeField cw = 0 then l.latInit else l.latNext := by
  rcases decode_cases cw with ⟨h, d⟩ | ⟨h, d⟩ | ⟨h, d⟩ | ⟨h, d⟩ | ⟨h, d⟩ | ⟨h, d⟩ <;> simp only [extraCycles, d]
  case inr.inr.inr.inr.inr =>
    have : opcodeField cw ≠ 0 := by rintro e; simp [e] at h
    rw [if_neg this]; rfl
  all_goals simp [h, Latencies.latInit, Latencies.latNext]

/-- A run of edges followed by another is one run, the traffic joined. -/
theorem observe_add {m n : Nat} {s t : State} {tr : Traffic} (h : observe m s = some (t, tr)) :
    observe (m + n) s =
      (observe n t).map fun (u, tr') => (u, ⟨tr.commands ++ tr'.commands, tr.responses ++ tr'.responses⟩) := by
  induction m generalizing s t tr with
  | zero =>
    simp only [observe_zero, Option.some.injEq, Prod.mk.injEq] at h
    obtain ⟨rfl, rfl⟩ := h
    simp
  | succ m ih =>
    obtain ⟨u, hs, -⟩ := step_next s
    rw [observe_succ _ hs] at h
    simp only [Option.map_eq_some_iff, Prod.exists, Prod.mk.injEq] at h
    obtain ⟨v, tv, hv, rfl, rfl⟩ := h
    rw [Nat.add_right_comm, observe_succ _ hs, ih hv]
    cases observe n v <;> simp

/-- While a response is still to come, edges without reset only count down (R209, R211). -/
theorem observe_waiting (m w : Nat) (s : State) (r : Response) (hp : s.phase = .answering (w + m) r)
    (hf : s.resetFree m = true) :
    observe m s = some ({ s with phase := .answering w r, inputs := s.inputs.drop m }, ⟨[], []⟩) := by
  induction m generalizing s with
  | zero => simp only [Nat.add_zero] at hp; simp [← hp]
  | succ m ih =>
    obtain ⟨hr, hf'⟩ := resetFree_succ hf
    have hs := step_of_waiting (n := w + m) (r := r) hr hp
    rw [observe_succ _ hs, ih ((pastEdge s).withPhase (.answering (w + m) r)) rfl (hf' _ rfl)]
    simp [State.accepts, State.delivers, State.cmdReady, State.rsp, hp, ← Nat.add_assoc, State.withPhase, pastEdge]

/-! ### The commands on the state words -/

/-- The words an expansion leaves do not depend on those before it (spec/41_seed_expander.md R114). -/
theorem expand_congr (seed : Word) (g h : GenState) : expand seed g = expand seed h := by
  simp [expand, slots, expandSlot]

/-- One more step of the stream (spec/42_generator_core.md R141). -/
theorem streamState_succ (seed : Word) (n : Nat) : streamState seed (n + 1) = update (streamState seed n) := by
  simp [streamState, Function.iterate_succ_apply']

@[simp] theorem streamState_zero (seed : Word) : streamState seed 0 = expand seed GenState.zero := rfl

/-- The test for the degenerate state (R138). -/
theorem degenerate_eq_false (g : GenState) : g.degenerate = false ↔ g ≠ ⟨0, 0, 0, 0⟩ := by
  simp [GenState.degenerate, GenState.zero]

end Sys2Proof.Machine
end

