-- ==== Sys2Proof/Tests/Slice0.lean ====
section
/-!
SUPPORT. Tests of one step each, expected values taken from the vectors V<n> of spec/95_test_vectors.md and
spec/96_test_vectors_more.md (evaluated there by the spec), and one witness for each obligation with hypotheses: a concrete
state and operands that meet all of them together.
-/

open Sys2Proof Sys2Proof.Machine

namespace Sys2Proof.Tests

/-! ### Helpers -/

/-- A block that is ready, with the given state words and edges to come. -/
def readyWith (g : GenState) (es : List Edge) : State :=
  { phase := .ready, gen := g, aux := ⟨5, 6, 7, 8⟩, lat := ⟨1, 0⟩, inputs := es }

/-- A block that is answering. -/
def answeringWith (wait : Nat) (r : Response) (es : List Edge) : State :=
  { readyWith ⟨1, 2, 3, 4⟩ es with phase := .answering wait r }

/-- An edge on which the host presents a command and is ready for a response. -/
def edgeOf (cw : CommandWord) : Edge := .ofPins { Pins.presenting cw with rspReady := true }

/-- An edge with `rst = 1`, and what the words are reset to. -/
def resetTo (g : GenState) : Edge := { pins := { Pins.quiet with rst := true }, sReset := g, aReset := ⟨9, 9, 9, 9⟩ }

/-- What one command leaves in the words and answers, from the given words. -/
def after (cw : CommandWord) (g : GenState) : Option (GenState × ResponseWord) :=
  (transact cw (readyWith g [])).map fun (t, r) => (t.gen, r.word)

/-- What one step leaves: the phase and the words. -/
def stepped (s : State) : Option (Phase × GenState) :=
  match step s with
  | .next t => some (t.phase, t.gen)
  | .fault _ => none
  | .refused _ => none

/-- The state words of V1. -/
def wordsV1 : GenState := ⟨0xe220a8397b1dcdaf#64, 0x6e789e6aa1b965f4#64, 0x06c45d188009454f#64, 0xf88bb8a8724c81ec#64⟩

/-! ### Well-formedness -/

theorem test_seed_too_wide : seedFits 0x10000000000000000 = false := by decide

theorem test_seed_widest : seedFits 0xffffffffffffffff = true := by decide

theorem test_command_too_wide : commandFits 0x100000000000000000 = false := by decide

theorem test_command_widest : commandFits 0xfffffffffffffffff = true := by decide

/-! ### Decoding and encoding: V50 to V62 -/

theorem test_decode_initialize : decode 0x09e3779b97f4a7c15#68 = .ok (.initializeWith 0x9e3779b97f4a7c15#64) := by decide

theorem test_decode_initialize_all_ones :
    decode 0x0ffffffffffffffff#68 = .ok (.initializeWith 0xffffffffffffffff#64) := by decide

theorem test_decode_next_u64 : decode 0x10000000000000000#68 = .ok .nextU64 := by decide

theorem test_decode_next_u64_data_ignored : decode 0x1ffffffffffffffff#68 = .ok .nextU64 := by decide

theorem test_decode_next_u32 : decode 0x20000000000000000#68 = .ok .nextU32 := by decide

theorem test_decode_next_f32 : decode 0x30000000000000000#68 = .ok .nextF32 := by decide

theorem test_decode_next_f64 : decode 0x40000000000000000#68 = .ok .nextF64 := by decide

theorem test_decode_reserved_5 : decode 0x50000000000000000#68 = .error (.reservedOpcode 0x5#4) := by decide

theorem test_decode_reserved_8 : decode 0x80000000000000000#68 = .error (.reservedOpcode 0x8#4) := by decide

theorem test_decode_reserved_f : decode 0xf0123456789abcdef#68 = .error (.reservedOpcode 0xf#4) := by decide

theorem test_encode_initialize : encode (.initializeWith 1) = 0x00000000000000001#68 := by decide

theorem test_encode_next_f64 : encode .nextF64 = 0x40000000000000000#68 := by decide

/-! ### The host's table words, from reset -/

theorem test_table_word_initialize :
    decodeTableWord 68 0x00123456789abcdef = some (.initializeWith 0x0123456789abcdef#64) := by decide

theorem test_table_word_too_wide : decodeTableWord 72 0x100000000000000000 = none := by decide

theorem test_fetch_word_next_u32 :
    stepped (State.reset.withFetchWord 68 0x20000000000000000) =
      some (.answering 0 ⟨.raised .unimplemented, 0⟩, GenState.zero) := by decide

/-! ### The datapath: V32, V34, V35 -/

theorem test_rotl_wraps : rotl 0x0000020000000000#64 23 = 0x0000000000000001#64 := by decide

theorem test_rotl_keeps : rotl 0x0000000000040000#64 45 = 0x8000000000000000#64 := by decide

/-- V35, its first and last undoing. -/
theorem test_undo_shifts :
    undoShiftRight 31 0xe220a8397b1dcdaf#64 = 0xe220a838bf5c9dde#64 ∧
    undoShiftRight 30 0x9e3779bb07979af0#64 = 0x9e3779b97f4a7c15#64 := by decide

theorem test_mix_gamma : mix 0x9e3779b97f4a7c15#64 = 0xe220a8397b1dcdaf#64 := by decide

theorem test_mix_top_bit : mix 0x8000000000000000#64 = 0x25c26ea579cea98a#64 := by decide

/-! ### The commands: V1, V4, V18, V74, V40, V44, V41, V42, V70, V71 -/

theorem test_initialize_zero : after 0x00000000000000000#68 ⟨1, 2, 3, 4⟩ = some (wordsV1, 0x00000000000000000#66) := by decide

theorem test_initialize_accumulator_wraps :
    after 0x0ffffffffffffffff#68 wordsV1 =
      some (⟨0xe4d971771b652c20#64, 0xe99ff867dbf682c9#64, 0x382ff84cb27281e9#64, 0x6d1db36ccba982d2#64⟩,
        0x00000000000000000#66) := by decide

theorem test_next_u64_small :
    after 0x10000000000000000#68 ⟨1, 2, 3, 4⟩ =
      some (⟨0x0000000000000007#64, 0x0000000000000000#64, 0x0000000000040002#64, 0x0000c00000000000#64⟩,
        0x00000000002800001#66) := by decide

theorem test_next_u64_wraps :
    after 0x10000000000000000#68
        ⟨0xffffffffffffffff#64, 0xffffffffffffffff#64, 0xffffffffffffffff#64, 0xffffffffffffffff#64⟩ =
      some (⟨0xffffffffffffffff#64, 0xffffffffffffffff#64, 0xfffffffffffe0000#64, 0x0000000000000000#64⟩,
        0x0ffffffffff7ffffe#66) := by decide

theorem test_next_u32_raises :
    after 0x20000000000000000#68 ⟨1, 2, 3, 4⟩ = some (⟨1, 2, 3, 4⟩, 0x10000000000000000#66) := by decide

theorem test_next_u32_data_ignored :
    after 0x2deadbeefdeadbeef#68 wordsV1 = some (wordsV1, 0x10000000000000000#66) := by decide

theorem test_next_f32_raises : after 0x30000000000000000#68 wordsV1 = some (wordsV1, 0x10000000000000000#66) := by decide

theorem test_next_f64_raises : after 0x40000000000000000#68 wordsV1 = some (wordsV1, 0x10000000000000000#66) := by decide

theorem test_reserved_first :
    after 0x50000000000000000#68 ⟨1, 2, 3, 4⟩ = some (⟨1, 2, 3, 4⟩, 0x20000000000000000#66) := by decide

theorem test_reserved_last :
    after 0xfffffffffffffffff#68 ⟨1, 2, 3, 4⟩ = some (⟨1, 2, 3, 4⟩, 0x20000000000000000#66) := by decide

/-! ### The handshake: single edges of V80, with `LAT_INIT = 2` and `LAT_NEXT = 1` -/

/-- Cycle 1: the first edge after a reset takes no command, though one is presented. -/
theorem test_first_edge_takes_nothing :
    stepped { State.resetWith ⟨1, 2, 3, 4⟩ ⟨0, 0, 0, 0⟩ ⟨1, 0⟩ with inputs := [edgeOf 0] } =
      some (.ready, ⟨1, 2, 3, 4⟩) := by decide

/-- Cycle 2: `initialize 0` is transferred; its response is one busy cycle away. -/
theorem test_transfer_of_initialize :
    stepped (readyWith ⟨1, 2, 3, 4⟩ [edgeOf 0]) = some (.answering 1 ⟨.ok, 0⟩, wordsV1) := by decide

/-- Cycle 3: busy; the command presented is not taken. -/
theorem test_busy_counts_down :
    stepped (answeringWith 1 ⟨.ok, 0⟩ [edgeOf 0x10000000000000000#68]) =
      some (.answering 0 ⟨.ok, 0⟩, ⟨1, 2, 3, 4⟩) := by decide

/-- Cycle 6: the response is held while the host is not ready. -/
theorem test_response_held :
    stepped (answeringWith 0 ⟨.ok, 0x53175d61490b23df#64⟩ [.ofPins .quiet]) =
      some (.answering 0 ⟨.ok, 0x53175d61490b23df#64⟩, ⟨1, 2, 3, 4⟩) := by decide

/-- Cycle 7: the response is taken. -/
theorem test_response_taken :
    stepped (answeringWith 0 ⟨.ok, 0x53175d61490b23df#64⟩ [.ofPins { Pins.quiet with rspReady := true }]) =
      some (.ready, ⟨1, 2, 3, 4⟩) := by decide

/-- Cycle 8: a reserved command is transferred; its response is on the pins in the next cycle. -/
theorem test_transfer_of_reserved :
    stepped (readyWith ⟨1, 2, 3, 4⟩ [edgeOf 0x700000000000000aa#68]) =
      some (.answering 0 ⟨.raised .reservedOpcode, 0⟩, ⟨1, 2, 3, 4⟩) := by decide

/-- Cycle 11: a reset abandons the command in progress. -/
theorem test_reset_abandons :
    stepped (answeringWith 1 ⟨.ok, 0⟩ [resetTo ⟨4, 3, 2, 1⟩]) = some (.starting, ⟨4, 3, 2, 1⟩) := by decide

/-- Cycle 13: idle and ready, the state is held. -/
theorem test_idle : stepped (readyWith ⟨1, 2, 3, 4⟩ []) = some (.ready, ⟨1, 2, 3, 4⟩) := by decide

/-! ### The assembler: V52, V54, V59 and the errors of spec/96_test_vectors_more.md section 2.4 -/

theorem test_assemble_decimal :
    assembleLine "initialize 18446744073709551615".toList = .ok (some 0x0ffffffffffffffff#68) := by decide

theorem test_assemble_short_hex : assembleLine "initialize 0x1".toList = .ok (some 0x00000000000000001#68) := by decide

theorem test_assemble_word :
    assembleLine ".word 0x1ffffffffffffffff".toList = .ok (some 0x1ffffffffffffffff#68) := by decide

theorem test_assemble_bare :
    assembleLine "next_u64".toList = .ok (some 0x10000000000000000#68) ∧
    assembleLine "next_u32".toList = .ok (some 0x20000000000000000#68) ∧
    assembleLine "next_f32".toList = .ok (some 0x30000000000000000#68) ∧
    assembleLine "next_f64".toList = .ok (some 0x40000000000000000#68) := by decide

theorem test_assemble_no_operand : assembleLine "initialize".toList = .error .wrongOperandCount := by decide

theorem test_assemble_too_wide : assembleLine "initialize 0x10000000000000000".toList = .error .doesNotFit := by decide

theorem test_assemble_extra_operand : assembleLine "next_u64 5".toList = .error .wrongOperandCount := by decide

theorem test_assemble_upper_case : assembleLine "NEXT_U64".toList = .error .unknownMnemonic := by decide

theorem test_assemble_word_too_wide :
    assembleLine ".word 0x100000000000000000".toList = .error .doesNotFit := by decide

/-! ### Witnesses: the hypotheses of each obligation that has any, met together, at the ends of their ranges -/

theorem witness_DecodeIsTheOpcodeTable :
    0x0ffffffffffffffff#68 &&& 0xF0000000000000000#68 = 0x00000000000000000#68 ∧
    0x10000000000000000#68 &&& 0xF0000000000000000#68 = 0x10000000000000000#68 ∧
    0x2ffffffffffffffff#68 &&& 0xF0000000000000000#68 = 0x20000000000000000#68 ∧
    0x30000000000000000#68 &&& 0xF0000000000000000#68 = 0x30000000000000000#68 ∧
    0x4ffffffffffffffff#68 &&& 0xF0000000000000000#68 = 0x40000000000000000#68 ∧
    (∀ r ∈ opcodeRows, r.accepts 0x50000000000000000#68 = false) ∧
    decode 0xfffffffffffffffff#68 = .error (.reservedOpcode 0xf#4) := by decide

theorem witness_DataFieldIsTheSeedOrIgnored :
    (0x1#4 : Opcode) ≠ 0 ∧ (0xf#4 : Opcode) ≠ 0 ∧ ∀ seed : Word, Instr.nextU64 ≠ .initializeWith seed :=
  ⟨by decide, by decide, fun _ => nofun⟩

theorem witness_EncodeOfDecodeIsCanonical :
    decode 0x0ffffffffffffffff#68 = .ok (.initializeWith 0xffffffffffffffff#64) ∧
    decode 0x10000000000000000#68 = .ok .nextU64 ∧ decode 0x40000000000000001#68 = .ok .nextF64 := by decide

theorem witness_EveryCommandHasItsResponse :
    (0x2#4 : Opcode).toNat = 2 ∧ (0x4#4 : Opcode).toNat = 4 ∧ (0x5#4 : Opcode).toNat = 5 ∧ (0xf#4 : Opcode).toNat = 15 := by
  decide

/-- 1 and 16 digits are the ends of the first clause, 17 is the first of the second, and none is the third. -/
theorem witness_SeedLiteralFitsOrIsAnError :
    assembleLine (mnemonicInitialize ++ ' ' :: writeLiteral 1 0xf) = .ok (some (encode (.initializeWith 0xf))) ∧
    assembleLine (mnemonicInitialize ++ ' ' :: writeLiteral 16 0xffffffffffffffff) =
      .ok (some (encode (.initializeWith 0xffffffffffffffff))) ∧
    assembleLine (mnemonicInitialize ++ ' ' :: writeLiteral 17 1) = .error .doesNotFit ∧
    assembleLine (mnemonicInitialize ++ ' ' :: writeLiteral 0 1) = .error .badLiteral := by decide

/-- 0, and the two numbers about the end of the range. -/
theorem witness_SeedLiteralFitsOrIsAnError_decimal :
    ([0] : List (Fin 10)) ≠ [] ∧ 0 = Nat.ofDigits 10 (([0] : List (Fin 10)).map Fin.val).reverse ∧
    18446744073709551615 = Nat.ofDigits 10
      (([1, 8, 4, 4, 6, 7, 4, 4, 0, 7, 3, 7, 0, 9, 5, 5, 1, 6, 1, 5] : List (Fin 10)).map Fin.val).reverse ∧
    18446744073709551616 = Nat.ofDigits 10
      (([1, 8, 4, 4, 6, 7, 4, 4, 0, 7, 3, 7, 0, 9, 5, 5, 1, 6, 1, 6] : List (Fin 10)).map Fin.val).reverse := by decide

/-- Both ends of the range of `k`, and of `i`. -/
theorem witness_RotationMovesBitsRound :
    (rotl 0x8000000000000000#64 1).getLsbD 0 = true ∧ (rotl 0x8000000000000000#64 63).getLsbD 62 = true ∧
    (rotl 0x0000010000000000#64 23).getLsbD 63 = true := by decide

theorem witness_RotationRoundTrip :
    rotl (rotl 0x0123456789abcdef#64 1) 63 = 0x0123456789abcdef#64 ∧
    rotl (rotl 0x0123456789abcdef#64 63) 1 = 0x0123456789abcdef#64 := by decide

theorem witness_DatapathStepsAreInvertible :
    1 ≤ 1 ∧ 63 ≤ 63 ∧ (30 = sh1 ∨ 30 = sh2 ∨ 30 = sh3 ∨ 30 = shT) ∧ (1 : Word).getLsbD 0 = true ∧
    (0xffffffffffffffff#64).getLsbD 0 = true := by decide

theorem witness_AccumulatorCarriesForward :
    ((slots.take 0).foldl expandSlot ⟨1, GenState.zero⟩).acc = 1 ∧
    ((slots.take 4).foldl expandSlot ⟨0, GenState.zero⟩).acc = 0x78dde6e5fd29f054#64 := by decide

/-- The four seeds of V5 to V8: each has one word that is zero. -/
theorem witness_AtMostOneExpandedWordIsZero :
    (expand 0x61c8864680b583eb#64 GenState.zero).get 0 = 0 ∧ (expand 0xc3910c8d016b07d6#64 GenState.zero).get 1 = 0 ∧
    (expand 0x255992d382208bc1#64 GenState.zero).get 2 = 0 ∧ (expand 0x8722191a02d60fac#64 GenState.zero).get 3 = 0 := by
  decide

theorem witness_DifferentSeedsExpandDifferently : (0 : Word) ≠ 1 := by decide

theorem witness_NextU64ClosedForm : (readyWith ⟨1, 2, 3, 4⟩ []).gen = ⟨1, 2, 3, 4⟩ := by decide

/-- The recovery of the state of V1, as the vectors give it. -/
theorem witness_UpdateIsABijection :
    update wordsV1 = ⟨0x74d38efba8e829b7#64, 0x8a9c6b4b5aaded14#64, 0xd831b65330fc88e0#64, 0xbc8312de64d85a7e#64⟩ ∧
    0x96f326c2d3f5e418#64 = rotl 0xbc8312de64d85a7e#64 19 ∧
    0x52addd186a5165f4#64 = (0x8a9c6b4b5aaded14#64 ^^^ 0xd831b65330fc88e0#64 : Word) := by decide

theorem witness_AllZeroStateIsAFixedPoint :
    (readyWith ⟨0, 0, 0, 0⟩ []).gen = ⟨0, 0, 0, 0⟩ ∧ neverSeeds [0x10000000000000000#68, 0xf0000000000000000#68] = true := by
  decide

theorem witness_AllZeroStateIsAFixedPoint_at_the_pins :
    (readyWith ⟨0, 0, 0, 0⟩ [edgeOf 0x10000000000000000#68]).gen = ⟨0, 0, 0, 0⟩ ∧
    (nextEdge (readyWith ⟨0, 0, 0, 0⟩ [edgeOf 0x10000000000000000#68])).pins.rst = false ∧
    ∀ cw, (readyWith ⟨0, 0, 0, 0⟩ [edgeOf 0x10000000000000000#68]).accepts = some cw → opcodeField cw ≠ 0 := by
  refine ⟨by decide, by decide, fun cw h => ?_⟩
  have e : (readyWith ⟨0, 0, 0, 0⟩ [edgeOf 0x10000000000000000#68]).accepts = some 0x10000000000000000#68 := by decide
  rw [e, Option.some.injEq] at h
  subst h
  decide

theorem witness_DrawsFollowTheStream :
    neverSeeds [0x10000000000000000#68, 0x20000000000000000#68, 0x10000000000000000#68] = true ∧
    [0x10000000000000000#68, 0x20000000000000000#68, 0x10000000000000000#68].countP (fun cw => opcodeField cw == 1) = 2 := by
  decide

theorem witness_DeclaredOperationsRaise :
    Instr.nextF32 = .nextU32 ∧ (0x30000000000000000#68 : CommandWord) = 0x20000000000000000#68 ∨
      Instr.nextF32 = .nextF32 ∧ (0x30000000000000000#68 : CommandWord) = 0x30000000000000000#68 ∨
      Instr.nextF32 = .nextF64 ∧ (0x30000000000000000#68 : CommandWord) = 0x40000000000000000#68 := by decide

theorem witness_ReservedOpcodesRaise :
    5 ≤ (0x5#4 : Opcode).toNat ∧ 5 ≤ (0xf#4 : Opcode).toNat ∧
    runCommands [0x20000000000000000#68] { answeringWith 0 ⟨.ok, 7⟩ [] with phase := .ready } =
      some (readyWith ⟨1, 2, 3, 4⟩ [], [⟨.raised .unimplemented, 0⟩]) := by decide

theorem witness_ExceptionsLeaveNoTrace :
    2 ≤ (0x2#4 : Opcode).toNat ∧ (0x4#4 : Opcode).toNat ≤ 4 ∧ 5 ≤ (0x5#4 : Opcode).toNat := by decide

theorem witness_CommandsLeaveTheRestAlone :
    Instr.nextF64 = .nextU32 ∨ Instr.nextF64 = .nextF32 ∨ Instr.nextF64 = .nextF64 := by decide

theorem witness_StepRunsThePresentedCommand :
    (readyWith ⟨1, 2, 3, 4⟩ [edgeOf 0x20000000000000000#68]).phase = .ready ∧
    (readyWith ⟨1, 2, 3, 4⟩ [edgeOf 0x20000000000000000#68]).inputs = edgeOf 0x20000000000000000#68 :: [] ∧
    (edgeOf 0x20000000000000000#68).pins.rst = false ∧
    (edgeOf 0x20000000000000000#68).pins.cmdValid = true ∧
    (edgeOf 0x20000000000000000#68).pins.cmdOp = (0x20000000000000000#68).extractLsb' 64 4 ∧
    (edgeOf 0x20000000000000000#68).pins.cmdData = (0x20000000000000000#68).extractLsb' 0 64 ∧
    decode 0x20000000000000000#68 = .ok .nextU32 := by decide

theorem witness_StepRunsThePresentedCommand_reserved :
    (readyWith ⟨1, 2, 3, 4⟩ [edgeOf 0x50000000000000000#68]).phase = .ready ∧
    (readyWith ⟨1, 2, 3, 4⟩ [edgeOf 0x50000000000000000#68]).inputs = edgeOf 0x50000000000000000#68 :: [] ∧
    (edgeOf 0x50000000000000000#68).pins.rst = false ∧
    (edgeOf 0x50000000000000000#68).pins.cmdValid = true ∧
    (edgeOf 0x50000000000000000#68).pins.cmdOp = (0x50000000000000000#68).extractLsb' 64 4 ∧
    (edgeOf 0x50000000000000000#68).pins.cmdData = (0x50000000000000000#68).extractLsb' 0 64 ∧
    decode 0x50000000000000000#68 = .error (.reservedOpcode 0x5#4) := by decide

theorem witness_FetchWordIsRunNext : decodeTableWord 68 0x4ffffffffffffffff = some .nextF64 := by decide

theorem witness_StepIsTotalAndOnlyCommandsWrite :
    (nextEdge (readyWith ⟨1, 2, 3, 4⟩ [edgeOf 0x20000000000000000#68])).pins.rst = false ∧
    ∀ cw, (readyWith ⟨1, 2, 3, 4⟩ [edgeOf 0x20000000000000000#68]).accepts = some cw →
      opcodeField cw ≠ 0 ∧ opcodeField cw ≠ 1 := by
  refine ⟨by decide, fun cw h => ?_⟩
  have e : (readyWith ⟨1, 2, 3, 4⟩ [edgeOf 0x20000000000000000#68]).accepts = some 0x20000000000000000#68 := by decide
  rw [e, Option.some.injEq] at h
  subst h
  decide

theorem witness_ResetTakesEffectAtEveryEdge :
    (answeringWith 0 ⟨.ok, 7⟩ [resetTo ⟨4, 3, 2, 1⟩, edgeOf 0]).inputs = resetTo ⟨4, 3, 2, 1⟩ :: edgeOf 0 :: [] ∧
    (resetTo ⟨4, 3, 2, 1⟩).pins.rst = true ∧ (edgeOf 0).pins.rst = false := by decide

theorem witness_IdleBlockHoldsItsState :
    (readyWith ⟨1, 2, 3, 4⟩ []).pending = none ∧ (readyWith ⟨1, 2, 3, 4⟩ []).resetFree 3 = true ∧
    observe 3 (readyWith ⟨1, 2, 3, 4⟩ []) = some (readyWith ⟨1, 2, 3, 4⟩ [], ⟨[], []⟩) := by decide

theorem witness_HandshakeHoldsTheResponse_taken :
    (readyWith ⟨1, 2, 3, 4⟩ [edgeOf 0x50000000000000000#68]).accepts = some 0x50000000000000000#68 := by decide

theorem witness_HandshakeHoldsTheResponse_held :
    (answeringWith 0 ⟨.ok, 7⟩ [.ofPins .quiet]).rsp = some ⟨.ok, 7⟩ ∧
    (answeringWith 0 ⟨.ok, 7⟩ [.ofPins .quiet]).resetFree 2 = true ∧
    ((answeringWith 0 ⟨.ok, 7⟩ [.ofPins .quiet]).inputs.take 2).all (fun e => !e.pins.rspReady) = true := by decide

theorem witness_HandshakeHoldsTheResponse_given :
    (answeringWith 0 ⟨.ok, 7⟩ [edgeOf 0]).pending = some ⟨.ok, 7⟩ ∧
    (nextEdge (answeringWith 0 ⟨.ok, 7⟩ [edgeOf 0])).pins.rst = false ∧
    (answeringWith 0 ⟨.ok, 7⟩ [edgeOf 0]).delivers = some ⟨.ok, 7⟩ ∧
    (answeringWith 1 ⟨.ok, 7⟩ [edgeOf 0]).delivers = none := by decide

/-- With the helpers' latencies an `initialize` takes 2 cycles and any other command 1; there is one cycle before the second
and none before the first. -/
theorem witness_ResponseComesAfterTheLatency :
    (readyWith ⟨1, 2, 3, 4⟩ [edgeOf 0]).accepts = some 0 ∧
    2 = (if opcodeField 0 = 0 then (readyWith ⟨1, 2, 3, 4⟩ [edgeOf 0]).lat.latInit
      else (readyWith ⟨1, 2, 3, 4⟩ [edgeOf 0]).lat.latNext) ∧
    (readyWith ⟨1, 2, 3, 4⟩ [edgeOf 0]).resetFree 2 = true ∧ 1 ≤ 1 ∧ 1 < 2 := by decide

theorem witness_ResponseComesAfterTheLatency_other :
    (readyWith ⟨1, 2, 3, 4⟩ [edgeOf 0x10000000000000000#68]).accepts = some 0x10000000000000000#68 ∧
    1 = (if opcodeField 0x10000000000000000#68 = 0 then (readyWith ⟨1, 2, 3, 4⟩ []).lat.latInit
      else (readyWith ⟨1, 2, 3, 4⟩ []).lat.latNext) ∧
    (readyWith ⟨1, 2, 3, 4⟩ [edgeOf 0x10000000000000000#68]).resetFree 1 = true := by decide

theorem witness_PresentedCommandIsTaken_starting :
    2 = (match ({ readyWith ⟨1, 2, 3, 4⟩ [edgeOf 0, edgeOf 0] with phase := .starting }).phase with
      | .starting => 2
      | .ready => 1
      | .answering wait _ => wait + 2) ∧
    2 ≤ ({ readyWith ⟨1, 2, 3, 4⟩ [edgeOf 0, edgeOf 0] with phase := .starting }).inputs.length ∧
    ∀ e ∈ ({ readyWith ⟨1, 2, 3, 4⟩ [edgeOf 0, edgeOf 0] with phase := .starting }).inputs.take 2,
      e.pins.rst = false ∧ e.pins.rspReady = true ∧ e.pins.cmdValid = true ∧ e.pins.command = 0 := by decide

theorem witness_PresentedCommandIsTaken_ready :
    1 = (match (readyWith ⟨1, 2, 3, 4⟩ [edgeOf 0]).phase with
      | .starting => 2
      | .ready => 1
      | .answering wait _ => wait + 2) ∧
    1 ≤ (readyWith ⟨1, 2, 3, 4⟩ [edgeOf 0]).inputs.length ∧
    ∀ e ∈ (readyWith ⟨1, 2, 3, 4⟩ [edgeOf 0]).inputs.take 1,
      e.pins.rst = false ∧ e.pins.rspReady = true ∧ e.pins.cmdValid = true ∧ e.pins.command = 0 := by decide

theorem witness_PresentedCommandIsTaken_answering :
    2 = (match (answeringWith 0 ⟨.ok, 7⟩ [edgeOf 0, edgeOf 0]).phase with
      | .starting => 2
      | .ready => 1
      | .answering wait _ => wait + 2) ∧
    2 ≤ (answeringWith 0 ⟨.ok, 7⟩ [edgeOf 0, edgeOf 0]).inputs.length ∧
    ∀ e ∈ (answeringWith 0 ⟨.ok, 7⟩ [edgeOf 0, edgeOf 0]).inputs.take 2,
      e.pins.rst = false ∧ e.pins.rspReady = true ∧ e.pins.cmdValid = true ∧ e.pins.command = 0 := by decide

theorem witness_PresentedCommandIsTaken_waiting :
    3 = (match (answeringWith 1 ⟨.ok, 7⟩ [edgeOf 0, edgeOf 0, edgeOf 0]).phase with
      | .starting => 2
      | .ready => 1
      | .answering wait _ => wait + 2) ∧
    3 ≤ (answeringWith 1 ⟨.ok, 7⟩ [edgeOf 0, edgeOf 0, edgeOf 0]).inputs.length ∧
    ∀ e ∈ (answeringWith 1 ⟨.ok, 7⟩ [edgeOf 0, edgeOf 0, edgeOf 0]).inputs.take 3,
      e.pins.rst = false ∧ e.pins.rspReady = true ∧ e.pins.cmdValid = true ∧ e.pins.command = 0 := by decide

theorem witness_HeldCommandIsTheOneTaken :
    hostKeepsCommands 2 (answeringWith 0 ⟨.ok, 7⟩ [edgeOf 0x20000000000000000#68, edgeOf 0x20000000000000000#68]) = true ∧
    (answeringWith 0 ⟨.ok, 7⟩ [edgeOf 0x20000000000000000#68, edgeOf 0x20000000000000000#68]).resetFree 2 = true ∧
    2 ≤ (answeringWith 0 ⟨.ok, 7⟩ [edgeOf 0x20000000000000000#68, edgeOf 0x20000000000000000#68]).inputs.length ∧
    ((answeringWith 0 ⟨.ok, 7⟩ [edgeOf 0x20000000000000000#68, edgeOf 0x20000000000000000#68]).inputs.take 2).all
      (fun e => e.pins.cmdValid) = true := by decide

theorem witness_PinRunsRefineCommandRuns :
    (readyWith ⟨1, 2, 3, 4⟩ [edgeOf 0x20000000000000000#68, edgeOf 0x50000000000000000#68]).pending = none ∧
    (readyWith ⟨1, 2, 3, 4⟩ [edgeOf 0x20000000000000000#68, edgeOf 0x50000000000000000#68]).resetFree 2 = true := by
  decide

theorem witness_InstancesAreIndependent :
    [readyWith ⟨1, 2, 3, 4⟩ [], readyWith ⟨4, 3, 2, 1⟩ []][1]? = some (readyWith ⟨4, 3, 2, 1⟩ []) ∧ 0 ≠ 1 := by decide

/-- A response as far off as the latency of `initialize` allows. -/
theorem witness_StepKeepsThePortLegal : (answeringWith 1 ⟨.ok, 7⟩ []).portLegal = true := by decide

theorem witness_StepKeepsTheStateHealthy : (readyWith ⟨1, 2, 3, 4⟩ [resetTo ⟨0, 0, 0, 1⟩]).healthy = true := by decide

theorem witness_NonzeroResetIsHealthy : (⟨0, 0, 0, 1⟩ : GenState) ≠ ⟨0, 0, 0, 0⟩ := by decide

theorem witness_SeedingFirstHidesTheResetState :
    seedsFirst [0x20000000000000000#68, 0x00000000000000001#68, 0x10000000000000000#68] = true ∧
    seedsFirst ([0x00000000000000001#68] ++ commandWord 1 7 :: []) = true := by decide

end Sys2Proof.Tests
end

section
/-!
PROOFS. The encoding of commands and responses (spec/30_encoding.md R61 to R68, spec/60_exceptions.md R171): what a word's bits
under the mask say, that the data field matters to `initialize` alone, and the status and value of each response.
-/

namespace Sys2Proof

/-! ### The opcode table's mask -/

/-- The mask keeps the opcode field and clears the data field (R68). -/
theorem commandWord_and_mask (op : Opcode) (d : Word) :
    commandWord op d &&& 0xF0000000000000000#68 = commandWord op 0 := by
  have hmask : 0xF0000000000000000#68 = commandWord 0xF#4 0 := by decide
  have hop : op &&& 0xF#4 = op := BitVec.and_allOnes
  have hdata : d &&& 0 = 0 := BitVec.and_zero
  rw [hmask]
  unfold commandWord
  rw [BitVec.and_append, hop, hdata]

/-- A word has the opcode as its match under the mask exactly when its top four bits are the opcode (R68). -/
theorem and_mask_eq_iff (cw : CommandWord) (op : Opcode) :
    cw &&& 0xF0000000000000000#68 = commandWord op 0 ↔ opcodeField cw = op := by
  have hcw : cw &&& 0xF0000000000000000#68 = commandWord (opcodeField cw) 0 := by
    rw [← commandWord_and_mask (opcodeField cw) (dataField cw), commandWord_fields]
  rw [hcw]
  constructor
  · intro h
    simpa using congrArg opcodeField h
  · intro h
    rw [h]

theorem opcodeRow_accepts_eq_false_iff (cw : CommandWord) (op : Opcode) :
    (opcodeRow op).accepts cw = false ↔ opcodeField cw ≠ op := by
  rw [ne_eq, ← and_mask_eq_iff]
  exact beq_eq_false_iff_ne

/-- The words of no row are those with a reserved opcode (R66, R68). -/
theorem no_row_accepts_iff (cw : CommandWord) :
    (∀ r ∈ opcodeRows, r.accepts cw = false) ↔ 5 ≤ (opcodeField cw).toNat := by
  simp only [opcodeRows, List.forall_mem_cons, opcodeRow_accepts_eq_false_iff, List.not_mem_nil,
    false_implies, implies_true, and_true]
  generalize opcodeField cw = op
  revert op
  decide

theorem decode_eq_reserved_iff (cw : CommandWord) :
    decode cw = .error (.reservedOpcode (opcodeField cw)) ↔ 5 ≤ (opcodeField cw).toNat := by
  constructor
  · intro hd
    rcases decode_cases cw with ⟨-, h⟩ | ⟨-, h⟩ | ⟨-, h⟩ | ⟨-, h⟩ | ⟨-, h⟩ | ⟨hop, -⟩
    case inr.inr.inr.inr.inr => exact hop
    all_goals rw [h] at hd; cases hd
  · exact decode_of_opcode_reserved

/-- Settles O1: under the mask a word is its opcode field alone, and the decoder has one equation for each opcode. -/
theorem decodeIsTheOpcodeTable : Obligations.DecodeIsTheOpcodeTable := by
  unfold Obligations.DecodeIsTheOpcodeTable
  refine ⟨by decide, fun cw => ⟨?_, ?_, ?_, ?_, ?_, ?_⟩⟩
  · exact fun h => decode_of_opcode_zero ((and_mask_eq_iff cw 0).1 h)
  · exact fun h => decode_of_opcode_one ((and_mask_eq_iff cw 1).1 h)
  · exact fun h => decode_of_opcode_two ((and_mask_eq_iff cw 2).1 h)
  · exact fun h => decode_of_opcode_three ((and_mask_eq_iff cw 3).1 h)
  · exact fun h => decode_of_opcode_four ((and_mask_eq_iff cw 4).1 h)
  · exact (no_row_accepts_iff cw).trans (decode_eq_reserved_iff cw).symm

/-! ### The data field -/

/-- The decoder reads the data field of opcode 0 alone (R63). -/
theorem decode_ignores_data {op : Opcode} (h : op ≠ 0) (d d' : Word) :
    decode (commandWord op d) = decode (commandWord op d') := by
  have hf : opcodeField (commandWord op d) = opcodeField (commandWord op d') := by simp
  rcases decode_cases (commandWord op d') with ⟨hop, -⟩ | ⟨hop, hd⟩ | ⟨hop, hd⟩ | ⟨hop, hd⟩ | ⟨hop, hd⟩ | ⟨hop, hd⟩
  · exact absurd (by simpa using hop) h
  · rw [hd, decode_of_opcode_one (hf.trans hop)]
  · rw [hd, decode_of_opcode_two (hf.trans hop)]
  · rw [hd, decode_of_opcode_three (hf.trans hop)]
  · rw [hd, decode_of_opcode_four (hf.trans hop)]
  · rw [hd, decode_of_opcode_reserved (hf ▸ hop), hf]

theorem Instr.data_eq_zero (i : Instr) (h : ∀ seed : Word, i ≠ .initializeWith seed) : i.data = 0 := by
  cases i with
  | initializeWith seed => exact absurd rfl (h seed)
  | nextU64 => rfl
  | nextU32 => rfl
  | nextF32 => rfl
  | nextF64 => rfl

end Sys2Proof

namespace Sys2Proof.Machine

/-- The machine sees of a command word what the decoder reads from it (R68). -/
theorem executeCommand_congr {cw cw' : CommandWord} (h : decode cw = decode cw') (s : State) :
    executeCommand cw s = executeCommand cw' s := by
  unfold executeCommand
  rw [h]

/-- Settles O2: a word is its two fields side by side, and only opcode 0 has its data field decoded. -/
theorem dataFieldIsTheSeedOrIgnored : Obligations.DataFieldIsTheSeedOrIgnored := by
  unfold Obligations.DataFieldIsTheSeedOrIgnored
  refine ⟨commandWord_toNat, fun seed => ?_, fun op d d' s h => ?_, fun i h => ?_⟩
  · rw [decode_of_opcode_zero (opcodeField_commandWord 0 seed), dataField_commandWord]
  · exact executeCommand_congr (decode_ignores_data h d d') s
  · exact (dataField_encode i).trans (i.data_eq_zero h)

/-! ### The response word -/

/-- The number a response word is (R64). -/
theorem Response.word_toNat (r : Response) : r.word.toNat = r.status.code.toNat * 2 ^ 64 + r.value.toNat := by
  unfold Response.word
  rw [BitVec.toNat_append, ← Nat.shiftLeft_add_eq_or_of_lt r.value.isLt, Nat.shiftLeft_eq]

theorem Response.statusField_word (r : Response) : r.word.extractLsb' 64 2 = r.status.code :=
  BitVec.extractLsb'_append_eq_left

/-- Code 3 is never produced (R64). -/
theorem Status.code_ne_three (st : Status) : st.code ≠ 3#2 := by
  rcases st with - | (- | -) <;> decide

/-! ### The response to a command, opcode by opcode -/

section
variable {cw : CommandWord}

theorem answerTo_of_opcode_zero (h : opcodeField cw = 0) (g : GenState) : answerTo cw g = .okWith 0 := by
  simp [answerTo, decode_of_opcode_zero h]

theorem answerTo_of_opcode_one (h : opcodeField cw = 1) (g : GenState) : answerTo cw g = .okWith (output g) := by
  simp [answerTo, decode_of_opcode_one h]

/-- The declared operations are those of opcodes 2, 3 and 4 (R62, R65). -/
theorem answerTo_of_opcode_declared (hlo : 2 ≤ (opcodeField cw).toNat) (hhi : (opcodeField cw).toNat ≤ 4)
    (g : GenState) : answerTo cw g = .raising .unimplemented := by
  rcases decode_cases cw with ⟨hop, -⟩ | ⟨hop, -⟩ | ⟨-, hd⟩ | ⟨-, hd⟩ | ⟨-, hd⟩ | ⟨hop, -⟩
  · simp [hop] at hlo
  · simp [hop] at hlo
  · simp [answerTo, hd]
  · simp [answerTo, hd]
  · simp [answerTo, hd]
  · omega

theorem answerTo_of_opcode_reserved (h : 5 ≤ (opcodeField cw).toNat) (g : GenState) :
    answerTo cw g = .raising .reservedOpcode := by
  simp [answerTo, decode_of_opcode_reserved h]

end

/-- Settles O6: the response word is its two fields side by side, and `executeCommand_eq` gives each command the response
`answerTo` names. -/
theorem everyCommandHasItsResponse : Obligations.EveryCommandHasItsResponse := by
  unfold Obligations.EveryCommandHasItsResponse
  refine ⟨fun v => ?_, fun v => Response.word_toNat _, fun v => Response.word_toNat _, fun r => ?_, fun op d s => ?_⟩
  · simp [Response.word_toNat, Status.code]
  · rw [r.statusField_word]
    exact r.status.code_ne_three
  · have hf : opcodeField (commandWord op d) = op := opcodeField_commandWord op d
    refine ⟨_, answerTo (commandWord op d) s.gen, executeCommand_eq _ s, rfl, ?_, ?_, ?_, ?_⟩
    · exact fun h => answerTo_of_opcode_zero (hf.trans (BitVec.eq_of_toNat_eq h)) s.gen
    · exact fun h => answerTo_of_opcode_one (hf.trans (BitVec.eq_of_toNat_eq h)) s.gen
    · exact fun hlo hhi => answerTo_of_opcode_declared (hf.symm ▸ hlo) (hf.symm ▸ hhi) s.gen
    · exact fun h => answerTo_of_opcode_reserved (hf.symm ▸ h) s.gen

end Sys2Proof.Machine
end

section
/-!
The rotation of spec/40_arithmetic.md section 2: which bit of the word each bit of the rotated word is (R97), and from that the
inverse rotation and the exclusive or (R98).
-/

namespace Sys2Proof.Machine

/-! ### The bits of a rotated word -/

/-- The bits below the rotation amount are the top bits of the word (R97). -/
theorem getLsbD_rotl_of_lt {i k : Nat} (h : i < k) (x : Word) :
    (rotl x k).getLsbD i = x.getLsbD (64 - k + i) := by
  simp [getLsbD_rotl, h]

/-- The bits at the rotation amount and above come from `k` places down (R97). -/
theorem getLsbD_rotl_of_le {i k : Nat} (h : k ≤ i) (hi : i < 64) (x : Word) :
    (rotl x k).getLsbD i = x.getLsbD (i - k) := by
  have htop : x.getLsbD (64 - k + i) = false := BitVec.getLsbD_of_ge x _ (by omega)
  rw [getLsbD_rotl, htop]
  simp [hi, h]

/-! ### The inverse rotation -/

/-- Two rotations whose amounts make up the width cancel (R98). -/
theorem rotl_rotl_of_add_eq_width {j k : Nat} (h : j + k = 64) (x : Word) : rotl (rotl x j) k = x := by
  refine BitVec.eq_of_getLsbD_eq fun i hi => ?_
  obtain hik | hki := Nat.lt_or_ge i k
  · have hsrc : 64 - k + i - j = i := by omega
    rw [getLsbD_rotl_of_lt hik, getLsbD_rotl_of_le (by omega) (by omega), hsrc]
  · have hsrc : 64 - j + (i - k) = i := by omega
    rw [getLsbD_rotl_of_le hki hi, getLsbD_rotl_of_lt (by omega), hsrc]

theorem rotl_bijective {k : Nat} (h : k ≤ 64) : Function.Bijective fun x => rotl x k :=
  Function.bijective_iff_has_inverse.2
    ⟨fun x => rotl x (64 - k), fun x => rotl_rotl_of_add_eq_width (by omega) x,
      fun x => rotl_rotl_of_add_eq_width (by omega) x⟩

/-! ### Exclusive or -/

/-- Each bit of a rotated word is one bit of the word, so the rotation goes through a bitwise operation (R98). -/
theorem rotl_xor (a b : Word) (k : Nat) : rotl (a ^^^ b) k = rotl a k ^^^ rotl b k := by
  refine BitVec.eq_of_getLsbD_eq fun i hi => ?_
  rw [xor_is_bitwise]
  obtain hik | hki := Nat.lt_or_ge i k
  · simp only [getLsbD_rotl_of_lt hik, xor_is_bitwise]
  · simp only [getLsbD_rotl_of_le hki hi, xor_is_bitwise]

/-- Settles O11: bit by bit a rotation only moves bits, so the complementary one moves them back and exclusive or is kept;
a carry out of the top bit is lost in a sum of words but not in a sum of rotated words. -/
theorem rotationRoundTrip : Obligations.RotationRoundTrip := by
  unfold Obligations.RotationRoundTrip
  refine ⟨fun x k _ hk => ⟨?_, ?_⟩, fun k _ hk => rotl_bijective (by omega), fun x => ⟨?_, ?_, ?_, ?_⟩,
    fun a b k _ _ => rotl_xor a b k, 0x8000000000000000#64, 0x8000000000000000#64, 1, by decide⟩
  all_goals exact rotl_rotl_of_add_eq_width (by omega) x

end Sys2Proof.Machine
end

section
/-!
The Seed Expander (spec/41_seed_expander.md R111, R112, R116): the three steps of `mix`, the accumulator along the slots and the
word each slot gets, and that what follows an `initialize` depends on nothing before it.
-/

namespace Sys2Proof.Machine

/-- Settles O13: the constants and shifts of `mix` are those of R8. -/
theorem mixIsThreeSteps : Obligations.MixIsThreeSteps := by
  unfold Obligations.MixIsThreeSteps
  intro v
  refine ⟨_, _, rfl, rfl, ?_⟩
  simp only [mix, sh1, sh2, sh3, m1, m2]

/-! ### The accumulator and the slots -/

theorem gamma_toNat : gamma.toNat = 11400714819323198485 := by decide

/-- Each pass over a slot, whichever it is, adds the increment once (R111). -/
theorem acc_foldl_expandSlot (l : List (Fin 4)) (acc : Word) (g : GenState) :
    (l.foldl expandSlot ⟨acc, g⟩).acc = BitVec.ofNat 64 (acc.toNat + l.length * gamma.toNat) := by
  induction l generalizing acc g with
  | nil => simp
  | cons i l ih =>
    have hpass : expandSlot ⟨acc, g⟩ i = ⟨acc + gamma, g.set i (mix (acc + gamma))⟩ := rfl
    rw [List.foldl_cons, hpass, ih, List.length_cons]
    apply BitVec.eq_of_toNat_eq
    simp only [BitVec.toNat_ofNat, add_is_modular, gamma_toNat]
    omega

/-- The passes over other slots leave a slot's word as it is (R23, R114). -/
theorem get_foldl_expandSlot_of_notMem {i : Fin 4} {l : List (Fin 4)} (h : i ∉ l) (e : Expansion) :
    (l.foldl expandSlot e).gen.get i = e.gen.get i := by
  induction l generalizing e with
  | nil => rfl
  | cons j l ih =>
    obtain ⟨hij, hl⟩ := List.ne_and_not_mem_of_not_mem_cons h
    rw [List.foldl_cons, ih hl]
    exact GenState.get_set_other _ _ _ _ hij

/-- Slot `i` is the one after the first `i` slots, and none of the later ones. -/
theorem slots_split (i : Fin 4) : slots = slots.take i ++ i :: slots.drop (i + 1) ∧ i ∉ slots.drop (i + 1) := by
  revert i
  decide

/-- A slot's word is mixed from the accumulator that the slots before it leave, increased once more; no later pass writes it
(R111, R114). -/
theorem get_expand_eq_mix_acc (seed : Word) (g : GenState) (i : Fin 4) :
    (expand seed g).get i = mix (((slots.take i).foldl expandSlot ⟨seed, g⟩).acc + gamma) := by
  obtain ⟨hsplit, hlater⟩ := slots_split i
  rw [expand, congrArg (List.foldl expandSlot _) hsplit, List.foldl_append, List.foldl_cons,
    get_foldl_expandSlot_of_notMem hlater]
  exact GenState.get_set_same _ _ _

/-- The accumulator after the first `n` slots (R111). -/
theorem acc_take_slots (seed : Word) (g : GenState) {n : Nat} (hn : n ≤ 4) :
    ((slots.take n).foldl expandSlot ⟨seed, g⟩).acc = BitVec.ofNat 64 (seed.toNat + n * gamma.toNat) := by
  have hlen : (slots.take n).length = n := List.length_take_of_le hn
  rw [acc_foldl_expandSlot, hlen]

/-- One more increment of a working value (R111). -/
theorem ofNat_add_gamma (n k : Nat) :
    BitVec.ofNat 64 (n + k * gamma.toNat) + gamma = BitVec.ofNat 64 (n + (k + 1) * gamma.toNat) := by
  rw [Nat.succ_mul, ← Nat.add_assoc, BitVec.ofNat_add _ gamma.toNat, BitVec.ofNat_toNat, BitVec.setWidth_eq]

/-- The word of slot `i` in terms of the seed alone (R111). -/
theorem get_expand (seed : Word) (g : GenState) (i : Fin 4) :
    (expand seed g).get i = mix (BitVec.ofNat 64 (seed.toNat + (i.val + 1) * gamma.toNat)) := by
  rw [get_expand_eq_mix_acc, acc_take_slots seed g (by omega), ofNat_add_gamma]

/-- Settles O15: the accumulator counts the passes, and the pass that writes slot `i` is number `i + 1`. -/
theorem accumulatorCarriesForward : Obligations.AccumulatorCarriesForward := by
  unfold Obligations.AccumulatorCarriesForward
  intro seed g n hn
  rw [← gamma_toNat]
  refine ⟨?_, get_expand seed g⟩
  rw [acc_take_slots seed g hn, BitVec.toNat_ofNat]

/-! ### Reseeding -/

theorem decode_encode_initializeWith (seed : Word) :
    decode (encode (.initializeWith seed)) = .ok (.initializeWith seed) := by
  rw [decode_of_opcode_zero (opcodeField_encode _), dataField_encode]
  rfl

/-- The words after an `initialize` are the expansion of its seed, whatever the words before it (R114, R116). -/
theorem wordsAfter_initializeWith (seed : Word) (g h : GenState) :
    wordsAfter (encode (.initializeWith seed)) g = expand seed h := by
  simp only [wordsAfter, decode_encode_initializeWith]
  exact expand_congr seed g h

theorem answerTo_initializeWith (seed : Word) (g : GenState) :
    answerTo (encode (.initializeWith seed)) g = .okWith 0 :=
  answerTo_of_opcode_zero (opcodeField_encode _) g

/-- Settles O16: both runs come to the expansion of the seed, and words and responses are functions of the commands and the
words alone. -/
theorem reseedingStartsAfresh : Obligations.ReseedingStartsAfresh := by
  unfold Obligations.ReseedingStartsAfresh
  intro seed before after s t
  have hreseed (g : GenState) : wordsAfter (encode (.initializeWith seed)) g = expand seed GenState.zero :=
    wordsAfter_initializeWith seed g _
  have hs := runCommands_eq (before ++ encode (.initializeWith seed) :: after) s
  have ht := runCommands_eq (encode (.initializeWith seed) :: after) t
  rw [answersTo_append, answersTo_cons, answerTo_initializeWith, hreseed] at hs
  rw [answersTo_cons, answerTo_initializeWith, hreseed] at ht
  refine ⟨_, _, _, _, _, hs, ht, answersTo_length _ _, ?_⟩
  simp only [wordsAfterAll_append, wordsAfterAll_cons, hreseed]

end Sys2Proof.Machine
end

section
/-!
The Generator Core (spec/42_generator_core.md R131 to R137): the result and the new words in terms of the old words, and that
`next_u64` always answers.
-/

namespace Sys2Proof.Machine

/-- A response given is the one in flight (R209). -/
@[simp] theorem State.respond_pending (s : State) (gen : GenState) (extra : Nat) (r : Response) :
    (s.respond gen extra r).pending = some r := rfl

/-- Settles O24: `next_u64` answers its output in every state (`exec_nextU64`). -/
theorem nextU64NeverFails : Obligations.NextU64NeverFails := by
  unfold Obligations.NextU64NeverFails
  exact fun s => ⟨_, output s.gen, exec_nextU64 s, State.respond_phase ..⟩

/-! ### The result -/

/-- The result with the rotation written out (R97, R131). -/
theorem output_eq (g : GenState) :
    output g = (((g.s0 + g.s3) <<< 23) ||| ((g.s0 + g.s3) >>> 41)) + g.s0 := rfl

/-- Words 0 and 3 alone decide the result (R131). -/
theorem output_congr {g h : GenState} (h0 : g.s0 = h.s0) (h3 : g.s3 = h.s3) : output g = output h := by
  rw [output_eq, output_eq, h0, h3]

/-- Settles O21: the result is `output`, which words 1 and 2 do not enter. -/
theorem outputIsTheRotatedSum : Obligations.OutputIsTheRotatedSum := by
  unfold Obligations.OutputIsTheRotatedSum
  intro s
  refine ⟨_, _, exec_nextU64 s, rfl, ?_, fun b c => output_congr rfl rfl⟩
  rw [State.respond_pending, output_eq]
  rfl

/-! ### The new words -/

/-- `t` bit by bit: every bit comes from 17 places down, and the low 17 are 0 (R132). -/
theorem getLsbD_shiftedWord (g : GenState) (i : Nat) :
    (shiftedWord g).getLsbD i = (decide (17 ≤ i) && decide (i < 64) && g.s1.getLsbD (i - 17)) := by
  have hlow : (!decide (i < 17)) = decide (17 ≤ i) := by simp only [← decide_not, Nat.not_lt]
  rw [shiftedWord, shT, GenState.get_one, BitVec.getLsbD_shiftLeft, hlow, Bool.and_comm (decide (i < 64))]

/-- What the six lines leave in each word: words 1 and 0 are written from the already written words 2 and 3 (R133). -/
theorem update_eq (g : GenState) :
    update g =
      { s0 := g.s0 ^^^ (g.s3 ^^^ g.s1)
        s1 := g.s1 ^^^ (g.s2 ^^^ g.s0)
        s2 := (g.s2 ^^^ g.s0) ^^^ shiftedWord g
        s3 := rotl (g.s3 ^^^ g.s1) rotS3 } := by
  simp [update]

/-- Settles O22: the shift bit by bit, and the lines' values as `update_eq` gives them. -/
theorem updateIsSixLinesInOrder : Obligations.UpdateIsSixLinesInOrder := by
  unfold Obligations.UpdateIsSixLinesInOrder
  refine ⟨getLsbD_shiftedWord, fun s => ?_⟩
  refine ⟨_, _, _, _, _, _, _, _, exec_nextU64 s, rfl, rfl, rfl, rfl, rfl, rfl, rfl, ?_⟩
  rw [State.respond_gen, update_eq]
  rfl

end Sys2Proof.Machine
end

section
/-!
The declared operations (spec/43_declared_unimplemented.md R160 to R162): the canonical word of each, that the decoder reads it
from its opcode with any data, and the exception it raises.
-/

namespace Sys2Proof.Machine

/-- A declared operation takes no operand: its opcode alone names it, whatever the data (R63, R68). -/
theorem decode_commandWord_of_declared {i : Instr} (h : i = .nextU32 ∨ i = .nextF32 ∨ i = .nextF64) (data : Word) :
    decode (commandWord i.opcode data) = .ok i := by
  rcases h with rfl | rfl | rfl
  · exact decode_of_opcode_two (opcodeField_commandWord _ _)
  · exact decode_of_opcode_three (opcodeField_commandWord _ _)
  · exact decode_of_opcode_four (opcodeField_commandWord _ _)

/-- Settles O29: the given word is the operation's canonical one, its opcode field is what the decoder reads, and
`exec_declared` gives the whole next state. -/
theorem declaredOperationsRaise : Obligations.DeclaredOperationsRaise := by
  unfold Obligations.DeclaredOperationsRaise
  intro i canonical data s h
  have hdeclared : i = .nextU32 ∨ i = .nextF32 ∨ i = .nextF64 := h.imp And.left (Or.imp And.left And.left)
  have hcanonical : encode i = canonical := by
    rcases h with ⟨rfl, rfl⟩ | ⟨rfl, rfl⟩ | ⟨rfl, rfl⟩ <;> decide
  refine ⟨hcanonical, ?_, exec_declared i s hdeclared, by decide⟩
  rw [← hcanonical, opcodeField_encode]
  exact decode_commandWord_of_declared hdeclared data

end Sys2Proof.Machine
end

section
/-!
Reset and idling (spec/70_reset_and_hazards.md R200, R210, R211): what a reset edge and the edge after it do, and that a block
with nothing in flight keeps its words over any number of edges that transfer no command.
-/

namespace Sys2Proof.Machine

section
variable {s : State}

/-! ### The channels of the pins -/

theorem nextEdge_of_inputs_cons {e : Edge} {es : List Edge} (h : s.inputs = e :: es) : nextEdge s = e := by
  simp [nextEdge, h]

/-- No command is transferred at a reset edge (R200). -/
theorem accepts_eq_none_of_reset (h : (nextEdge s).pins.rst = true) : s.accepts = none := by
  simp [State.accepts, h]

/-- No response is transferred at a reset edge (R200). -/
theorem delivers_eq_none_of_reset (h : (nextEdge s).pins.rst = true) : s.delivers = none := by
  simp [State.delivers, h]

/-- A block that is not ready takes no command (R209). -/
theorem accepts_eq_none_of_not_cmdReady (h : s.cmdReady = false) : s.accepts = none := by
  simp [State.accepts, h]

/-- A ready block takes the command presented at an edge without reset (R71). -/
theorem cmdValid_eq_false_of_accepts_eq_none (hr : (nextEdge s).pins.rst = false) (hp : s.phase = .ready)
    (ha : s.accepts = none) : (nextEdge s).pins.cmdValid = false := by
  simpa [State.accepts, State.cmdReady, hr, hp] using ha

/-- Nothing is in flight in the cycle after a reset edge and when the block is idle (R200, R209). -/
theorem pending_eq_none_iff : s.pending = none ↔ s.phase = .starting ∨ s.phase = .ready := by
  rcases hp : s.phase with _ | _ | ⟨n, r⟩ <;> simp [State.pending, hp]

/-- With nothing in flight there is no response to give (R209). -/
theorem delivers_eq_none_of_pending_eq_none (h : s.pending = none) : s.delivers = none := by
  rcases pending_eq_none_iff.1 h with hp | hp <;> simp [State.delivers, State.rsp, hp]

/-- With nothing in flight and no command transferred, an edge without reset leaves the block ready and changes nothing else,
whether it was ready before or has just been reset (R200, R210). -/
theorem step_of_nothing_in_flight (hp : s.pending = none) (hr : (nextEdge s).pins.rst = false)
    (ha : s.accepts = none) : step s = .next ((pastEdge s).withPhase .ready) := by
  rcases pending_eq_none_iff.1 hp with hp | hp
  · exact step_of_starting hr hp
  · have hsame : (pastEdge s).withPhase .ready = pastEdge s := by rw [← hp]; rfl
    rw [hsame]
    exact step_of_idle hr hp (cmdValid_eq_false_of_accepts_eq_none hr hp ha)

end

/-- Settles O38: a reset edge transfers nothing and leaves the block in the cycle of `resetEdge`, which `step_of_starting`
ends. -/
theorem resetTakesEffectAtEveryEdge : Obligations.ResetTakesEffectAtEveryEdge := by
  unfold Obligations.ResetTakesEffectAtEveryEdge
  intro s e e' es hin hrst
  have he : nextEdge s = e := nextEdge_of_inputs_cons hin
  have hr : (nextEdge s).pins.rst = true := he ▸ hrst
  have hstep : step s = .next (resetEdge e (pastEdge s)) := he ▸ step_of_reset hr
  have hin' : (resetEdge e (pastEdge s)).inputs = e' :: es := congrArg List.tail hin
  refine ⟨accepts_eq_none_of_reset hr, delivers_eq_none_of_reset hr, _, hstep, rfl, rfl, rfl, hin', rfl, rfl, rfl,
    fun hrst' => ⟨accepts_eq_none_of_not_cmdReady rfl, _, ?_, rfl, rfl, rfl⟩⟩
  have hr' : (nextEdge (resetEdge e (pastEdge s))).pins.rst = false := nextEdge_of_inputs_cons hin' ▸ hrst'
  rw [step_of_starting hr' rfl, pastEdge, hin']
  rfl

/-- Edges without reset that transfer no command, met with nothing in flight, keep the words and the auxiliary slot, start
nothing and give no response (R210). -/
theorem observe_of_nothing_in_flight {k : Nat} {s t : State} {tr : Traffic} (hp : s.pending = none)
    (hf : s.resetFree k = true) (h : observe k s = some (t, tr)) (hc : tr.commands = []) :
    t.gen = s.gen ∧ t.aux = s.aux ∧ t.pending = none ∧ tr.responses = [] := by
  induction k generalizing s t tr with
  | zero =>
    simp only [observe_zero, Option.some.injEq, Prod.mk.injEq] at h
    obtain ⟨rfl, rfl⟩ := h
    exact ⟨rfl, rfl, hp, rfl⟩
  | succ k ih =>
    obtain ⟨hr, hrest⟩ := resetFree_succ hf
    obtain ⟨u, hs, hu⟩ := step_next s
    rw [observe_succ k hs] at h
    simp only [Option.map_eq_some_iff, Prod.exists, Prod.mk.injEq] at h
    obtain ⟨t, tr', hobs, rfl, rfl⟩ := h
    obtain ⟨hfirst, hlater⟩ := List.append_eq_nil_iff.1 hc
    have ha : s.accepts = none := Option.toList_eq_nil_iff.1 hfirst
    obtain rfl := Host.Outcome.next.inj (hs.symm.trans (step_of_nothing_in_flight hp hr ha))
    obtain ⟨hgen, haux, hpending, hresponses⟩ := ih rfl (hrest _ hu) hobs hlater
    refine ⟨hgen, haux, hpending, ?_⟩
    rw [delivers_eq_none_of_pending_eq_none hp, hresponses]
    rfl

/-- Settles O40: the words are kept, and a run of commands answers and writes as a function of the commands and the words
alone (`runCommands_eq`). -/
theorem idleBlockHoldsItsState : Obligations.IdleBlockHoldsItsState := by
  unfold Obligations.IdleBlockHoldsItsState
  intro k s t tr hp hf h hc
  obtain ⟨hgen, haux, hpending, hresponses⟩ := observe_of_nothing_in_flight hp hf h hc
  refine ⟨hgen, haux, hpending, hresponses, fun cs => ?_⟩
  have ht := runCommands_eq cs t
  rw [hgen] at ht
  exact ⟨_, _, _, runCommands_eq cs s, ht, rfl⟩

end Sys2Proof.Machine
end

section
/-!
The encoder against the decoder (spec/30_encoding.md sections 2 and 5): the round trip of every instruction, and which words are
the canonical word of what they decode to.
-/

namespace Sys2Proof

theorem Instr.wellFormed_eq_true (i : Instr) : i.wellFormed = true := by
  cases i <;> rfl

/-- The round trip: the canonical word's opcode field selects the row, and `initialize` finds its seed in the data field
(R61, R62). -/
theorem decode_encode (i : Instr) : decode (encode i) = .ok i := by
  cases i with
  | initializeWith seed => exact Machine.decode_encode_initializeWith seed
  | nextU64 => exact decode_of_opcode_one (opcodeField_encode _)
  | nextU32 => exact decode_of_opcode_two (opcodeField_encode _)
  | nextF32 => exact decode_of_opcode_three (opcodeField_encode _)
  | nextF64 => exact decode_of_opcode_four (opcodeField_encode _)

/-- Settles O3: `decode_encode`, and no instruction is ill formed. -/
theorem decodeOfEncode : Obligations.DecodeOfEncode := by
  unfold Obligations.DecodeOfEncode
  exact fun i => ⟨i.wellFormed_eq_true, decode_encode i⟩

/-- What a word that decodes says of its instruction: the opcode, and the data field when the opcode is that of `initialize`
(R62, R63). -/
theorem fields_of_decode {cw : CommandWord} {i : Instr} (h : decode cw = .ok i) :
    i.opcode = opcodeField cw ∧ i.data = if opcodeField cw = 0 then dataField cw else 0 := by
  rcases decode_cases cw with ⟨hop, hd⟩ | ⟨hop, hd⟩ | ⟨hop, hd⟩ | ⟨hop, hd⟩ | ⟨hop, hd⟩ | ⟨-, hd⟩
  case inr.inr.inr.inr.inr => rw [hd] at h; cases h
  all_goals
    obtain rfl := Except.ok.inj (hd.symm.trans h)
    simp [hop, Instr.opcode, Instr.data]

/-- A word is an instruction's canonical word when its two fields are the instruction's (R61). -/
theorem encode_eq_iff (i : Instr) (cw : CommandWord) :
    encode i = cw ↔ i.opcode = opcodeField cw ∧ i.data = dataField cw := by
  constructor
  · rintro rfl
    exact ⟨(opcodeField_encode i).symm, (dataField_encode i).symm⟩
  · rintro ⟨hop, hdata⟩
    rw [encode, hop, hdata, commandWord_fields]

/-- Settles O4: the opcode fields agree, and the data fields agree when the word's is the seed or is zero. -/
theorem encodeOfDecodeIsCanonical : Obligations.EncodeOfDecodeIsCanonical := by
  unfold Obligations.EncodeOfDecodeIsCanonical
  intro cw i h
  obtain ⟨hop, hdata⟩ := fields_of_decode h
  refine ⟨(opcodeField_encode i).trans hop, ?_⟩
  change encode i = cw ↔ (opcodeField cw = 0 ∨ dataField cw = 0)
  rw [encode_eq_iff, hdata]
  by_cases hzero : opcodeField cw = 0
  · simp [hop, hzero]
  · simp only [hop, hzero, if_false, true_and, false_or]
    exact eq_comm

/-- Settles O5: the decoder evaluated on the six words. -/
theorem writtenOutWordsDecode : Obligations.WrittenOutWordsDecode := by
  unfold Obligations.WrittenOutWordsDecode
  decide

end Sys2Proof
end

section
/-!
The assembler on the lines the model itself writes (spec/30_encoding.md section 5): how such a line falls into its words, what
its literal is read as, and the command it assembles to.
-/

namespace Sys2Proof.Machine

/-! ### The words of a line -/

/-- A word followed by a blank is the first word of the line, and the rest is read afresh. -/
theorem lineWords_append_blank {w : List Char} (hne : w ≠ []) (h : ∀ c ∈ w, plainChar c = true) (rest : List Char) :
    lineWords (w ++ ' ' :: rest) = w :: lineWords rest := by
  have hdrop : dropComment (' ' :: rest) = ' ' :: dropComment rest := by simp [dropComment]
  rw [lineWords, dropComment_plain _ _ h, hdrop, wordsFrom_plain _ _ _ h]
  simp [wordsFrom, isBlank, hne, lineWords]

/-- A word alone. -/
theorem lineWords_word {w : List Char} (hne : w ≠ []) (h : ∀ c ∈ w, plainChar c = true) : lineWords w = [w] := by
  have hdrop := dropComment_plain w [] h
  have hread := wordsFrom_plain w [] [] h
  rw [List.append_nil] at hdrop hread
  rw [lineWords, hdrop, dropComment, List.takeWhile_nil, List.append_nil, hread]
  simp [wordsFrom, hne]

/-- A comment holds no word. -/
theorem lineWords_comment (comment : List Char) : lineWords (';' :: comment) = [] := by
  simp [lineWords, dropComment, wordsFrom]

/-- What may follow the last word of a line: nothing, or a blank and a comment. -/
def endsLine (rest : List Char) : Prop := rest = [] ∨ ∃ comment, rest = ' ' :: ';' :: comment

/-- The last word of a line. -/
theorem lineWords_append_of_endsLine {w rest : List Char} (hne : w ≠ []) (h : ∀ c ∈ w, plainChar c = true)
    (hrest : endsLine rest) : lineWords (w ++ rest) = [w] := by
  rcases hrest with rfl | ⟨comment, rfl⟩
  · rw [List.append_nil, lineWords_word hne h]
  · rw [lineWords_append_blank hne h, lineWords_comment]

/-- A mnemonic is one word. -/
theorem lineWords_mnemonic_append {m rest : List Char}
    (hm : m ∈ [mnemonicInitialize, mnemonicNextU64, mnemonicNextU32, mnemonicNextF32, mnemonicNextF64, mnemonicWord])
    (hrest : endsLine rest) : lineWords (m ++ rest) = [m] := by
  obtain ⟨hne, hplain⟩ := plainChar_of_mem_mnemonic m hm
  exact lineWords_append_of_endsLine hne hplain hrest

/-- A mnemonic and its operand are two words. -/
theorem lineWords_mnemonic_operand_append {m w rest : List Char}
    (hm : m ∈ [mnemonicInitialize, mnemonicNextU64, mnemonicNextU32, mnemonicNextF32, mnemonicNextF64, mnemonicWord])
    (hne : w ≠ []) (hw : ∀ c ∈ w, plainChar c = true) (hrest : endsLine rest) :
    lineWords (m ++ ' ' :: w ++ rest) = [m, w] := by
  obtain ⟨hne', hplain⟩ := plainChar_of_mem_mnemonic m hm
  rw [List.append_assoc, List.cons_append, lineWords_append_blank hne' hplain,
    lineWords_append_of_endsLine hne hw hrest]

/-! ### Literals -/

theorem writeLiteral_ne_nil (k n : Nat) : writeLiteral k n ≠ [] := List.cons_ne_nil _ _

theorem writeDecimal_ne_nil {ds : List (Fin 10)} (h : ds ≠ []) : writeDecimal ds ≠ [] :=
  fun hnil => h (List.map_eq_nil_iff.1 hnil)

theorem mod_pow_sixteen_lt {k most : Nat} (h : k ≤ most) (n : Nat) : n % 16 ^ k < 16 ^ most :=
  (Nat.mod_lt n (by positivity)).trans_le (Nat.pow_le_pow_right (by norm_num) h)

/-- A seed literal of 1 to 16 hexadecimal digits is the number it writes, and one of more digits is an error (R69). -/
theorem readSeed_writeLiteral {k : Nat} (hk : 1 ≤ k) (n : Nat) :
    readSeed (writeLiteral k n) = if k ≤ 16 then .ok (BitVec.ofNat 64 (n % 16 ^ k)) else .error .doesNotFit := by
  rw [writeLiteral, readSeed, readHex_writeHex 16 k n hk]
  by_cases hmost : k ≤ 16
  · have hfits : n % 16 ^ k < 2 ^ 64 := mod_pow_sixteen_lt hmost n
    simp only [hmost, if_true, seedFits, hfits, decide_true]
  · simp only [hmost, if_false]

/-- `0x` without a digit (R69). -/
theorem readSeed_writeLiteral_zero (n : Nat) : readSeed (writeLiteral 0 n) = .error .badLiteral := rfl

/-- Reading all 17 digits of a command word gives the word (R69). -/
theorem readCommand_writeLiteral (cw : CommandWord) : readCommand (writeLiteral 17 cw.toNat) = .ok cw := by
  have hmod : cw.toNat % 16 ^ 17 = cw.toNat := Nat.mod_eq_of_lt cw.isLt
  have hfits : commandFits cw.toNat = true := decide_eq_true cw.isLt
  rw [writeLiteral, readCommand, readHex_writeHex 17 17 _ (by norm_num), hmod]
  simp [hfits]

/-- Reading all 16 digits of a seed gives the seed (R69). -/
theorem readSeed_writeLiteral_toNat (seed : Word) : readSeed (writeLiteral 16 seed.toNat) = .ok seed := by
  have hmod : seed.toNat % 16 ^ 16 = seed.toNat := Nat.mod_eq_of_lt seed.isLt
  rw [readSeed_writeLiteral (by norm_num), hmod]
  simp

/-- A decimal seed literal is the number it writes, if that fits (R69). -/
theorem readSeed_writeDecimal {ds : List (Fin 10)} (hne : ds ≠ []) :
    readSeed (writeDecimal ds) =
      if seedFits (Nat.ofDigits 10 (ds.map Fin.val).reverse) then
        .ok (BitVec.ofNat 64 (Nat.ofDigits 10 (ds.map Fin.val).reverse))
      else .error .doesNotFit := by
  unfold readSeed
  split
  · next hhex => exact absurd (hhex ▸ by simp) (x_not_mem_writeDecimal ds)
  · next hnil => exact absurd hnil (writeDecimal_ne_nil hne)
  · simp [readDigits_writeDecimal]

/-! ### Lines -/

theorem assembleWords_initialize (w : List Char) :
    assembleWords [mnemonicInitialize, w] = (readSeed w).map fun seed => some (encode (.initializeWith seed)) := rfl

theorem assembleWords_word (w : List Char) : assembleWords [mnemonicWord, w] = (readCommand w).map some := rfl

/-- The line of an `initialize` is as good as its literal (R69). -/
theorem assembleLine_initialize_append {w rest : List Char} (hne : w ≠ []) (hw : ∀ c ∈ w, plainChar c = true)
    (hrest : endsLine rest) :
    assembleLine (mnemonicInitialize ++ ' ' :: w ++ rest) =
      (readSeed w).map fun seed => some (encode (.initializeWith seed)) := by
  rw [assembleLine, lineWords_mnemonic_operand_append (by simp) hne hw hrest, assembleWords_initialize]

theorem assembleLine_initialize {w : List Char} (hne : w ≠ []) (hw : ∀ c ∈ w, plainChar c = true) :
    assembleLine (mnemonicInitialize ++ ' ' :: w) =
      (readSeed w).map fun seed => some (encode (.initializeWith seed)) := by
  have h := assembleLine_initialize_append hne hw (.inl rfl)
  rwa [List.append_nil] at h

/-- A raw line assembles to its word (R69). -/
theorem assembleLine_rawLine (cw : CommandWord) : assembleLine (rawLine cw) = .ok (some cw) := by
  have hwords := lineWords_mnemonic_operand_append (m := mnemonicWord) (by simp) (writeLiteral_ne_nil 17 cw.toNat)
    (plainChar_of_mem_writeLiteral _ _) (.inl rfl)
  rw [List.append_nil] at hwords
  rw [assembleLine, rawLine, hwords, assembleWords_word, readCommand_writeLiteral]
  rfl

/-- The canonical line of an instruction assembles to its canonical word (R69). -/
theorem assembleLine_canonicalLine_append (i : Instr) {rest : List Char} (hrest : endsLine rest) :
    assembleLine (canonicalLine i ++ rest) = .ok (some (encode i)) := by
  cases i with
  | initializeWith seed =>
    rw [canonicalLine, assembleLine_initialize_append (writeLiteral_ne_nil _ _) (plainChar_of_mem_writeLiteral _ _) hrest,
      readSeed_writeLiteral_toNat]
    rfl
  | nextU64 => rw [assembleLine, canonicalLine, lineWords_mnemonic_append (by simp) hrest]; rfl
  | nextU32 => rw [assembleLine, canonicalLine, lineWords_mnemonic_append (by simp) hrest]; rfl
  | nextF32 => rw [assembleLine, canonicalLine, lineWords_mnemonic_append (by simp) hrest]; rfl
  | nextF64 => rw [assembleLine, canonicalLine, lineWords_mnemonic_append (by simp) hrest]; rfl

theorem assembleLine_canonicalLine (i : Instr) : assembleLine (canonicalLine i) = .ok (some (encode i)) := by
  have h := assembleLine_canonicalLine_append i (.inl rfl)
  rwa [List.append_nil] at h

/-- Settles O7: a canonical word is printed as its instruction's line, and any other as a raw line. -/
theorem assembleOfDisassemble : Obligations.AssembleOfDisassemble := by
  unfold Obligations.AssembleOfDisassemble
  intro cw
  unfold disassemble
  split
  · next i _ =>
    split_ifs with hcanonical
    · rw [assembleLine_canonicalLine, hcanonical]
    · exact assembleLine_rawLine cw
  · exact assembleLine_rawLine cw

/-- Settles O8: both lines end the canonical line as `endsLine` allows. -/
theorem canonicalLineAssembles : Obligations.CanonicalLineAssembles := by
  unfold Obligations.CanonicalLineAssembles
  exact fun i comment => ⟨assembleLine_canonicalLine i, assembleLine_canonicalLine_append i (.inr ⟨comment, rfl⟩)⟩

/-- Settles O9: the line is read as its literal is, whose digits write the number. -/
theorem seedLiteralFitsOrIsAnError : Obligations.SeedLiteralFitsOrIsAnError := by
  unfold Obligations.SeedLiteralFitsOrIsAnError
  refine ⟨fun k n => ?_, fun ds n hne hn => ?_⟩
  · have hhex := assembleLine_initialize (writeLiteral_ne_nil k n) (plainChar_of_mem_writeLiteral k n)
    refine ⟨fun hk hmost => ?_, fun hk => ?_, ?_⟩
    · rw [hhex, readSeed_writeLiteral hk, if_pos hmost]
      rfl
    · rw [hhex, readSeed_writeLiteral (by omega), if_neg (by omega)]
      rfl
    · rintro rfl
      rw [hhex, readSeed_writeLiteral_zero]
      rfl
  · have hdecimal := assembleLine_initialize (writeDecimal_ne_nil hne) (plainChar_of_mem_writeDecimal ds)
    rw [readSeed_writeDecimal hne, ← hn] at hdecimal
    refine ⟨fun hfits => ?_, fun hover => ?_⟩
    · have hseed : seedFits n = true := decide_eq_true (by omega)
      rw [hdecimal, if_pos hseed]
      rfl
    · have hseed : ¬ seedFits n = true := by simp [seedFits]; omega
      rw [hdecimal, if_neg hseed]
      rfl

end Sys2Proof.Machine
end

section
/-!
The steps of the datapath one by one (spec/40_arithmetic.md sections 2 and 3): where the rotation takes each bit, and the inverses
of the shift steps, of multiplication by an odd constant and of `mix`.
-/

namespace Sys2Proof.Machine

/-- Settles O10: below `k` a bit comes from the top, and above it the sum passes the width once. -/
theorem rotationMovesBitsRound : Obligations.RotationMovesBitsRound := by
  unfold Obligations.RotationMovesBitsRound
  intro x k i _ hk hi
  obtain hik | hki := Nat.lt_or_ge i k
  · rw [getLsbD_rotl_of_lt hik]
    congr 1
    omega
  · rw [getLsbD_rotl_of_le hki hi]
    congr 1
    omega

/-! ### The inverses of the shift steps -/

/-- There are finitely many words, so a step that can be undone is a bijection. -/
theorem bijective_of_leftInverse {f g : Word → Word} (h : Function.LeftInverse g f) : Function.Bijective f :=
  Finite.injective_iff_bijective.1 h.injective

section
variable {k : Nat}

/-- The last copy is shifted out whole, so that only the word is left (R100). -/
theorem undoShiftRight_leftInverse (hk : 1 ≤ k) :
    Function.LeftInverse (undoShiftRight k) fun x : Word => x ^^^ (x >>> k) := fun x => by
  have hout : x >>> ((63 / k + 1) * k) = 0 := BitVec.ushiftRight_eq_zero (width_le_copies k hk)
  rw [undoShiftRight, xor_copies_shiftRight, hout]
  exact BitVec.xor_zero

/-- The mirror image (R100). -/
theorem undoShiftLeft_leftInverse (hk : 1 ≤ k) :
    Function.LeftInverse (undoShiftLeft k) fun x : Word => x ^^^ (x <<< k) := fun x => by
  have hout : x <<< ((63 / k + 1) * k) = 0 := BitVec.shiftLeft_eq_zero (width_le_copies k hk)
  rw [undoShiftLeft, xor_copies_shiftLeft, hout]
  exact BitVec.xor_zero

theorem shiftRightStep_bijective (hk : 1 ≤ k) : Function.Bijective fun x : Word => x ^^^ (x >>> k) :=
  bijective_of_leftInverse (undoShiftRight_leftInverse hk)

theorem shiftLeftStep_bijective (hk : 1 ≤ k) : Function.Bijective fun x : Word => x ^^^ (x <<< k) :=
  bijective_of_leftInverse (undoShiftLeft_leftInverse hk)

theorem undoShiftRight_rightInverse (hk : 1 ≤ k) :
    Function.RightInverse (undoShiftRight k) fun x : Word => x ^^^ (x >>> k) :=
  (undoShiftRight_leftInverse hk).rightInverse_of_surjective (shiftRightStep_bijective hk).surjective

theorem undoShiftLeft_rightInverse (hk : 1 ≤ k) :
    Function.RightInverse (undoShiftLeft k) fun x : Word => x ^^^ (x <<< k) :=
  (undoShiftLeft_leftInverse hk).rightInverse_of_surjective (shiftLeftStep_bijective hk).surjective

end

/-- The copies that undo the shift of the generator, written out (R100). -/
theorem undoShiftLeft_shT (y : Word) : undoShiftLeft shT y = y ^^^ (y <<< 17) ^^^ (y <<< 34) ^^^ (y <<< 51) := by
  have hcopies : List.range (63 / shT + 1) = [0, 1, 2, 3] := by decide
  rw [undoShiftLeft, hcopies]
  simp [shT]

/-! ### Multiplication by an odd constant -/

/-- An odd number has an inverse modulo a power of two. -/
theorem exists_mul_eq_one_of_odd {c : Word} (hc : c.getLsbD 0 = true) : ∃ d : Word, c * d = 1 := by
  have hodd : c.toNat % 2 = 1 := by simpa [BitVec.getLsbD, Nat.testBit_zero] using hc
  have hcoprime : Nat.Coprime c.toNat (2 ^ 64) := (Nat.coprime_two_right.2 (Nat.odd_iff.2 hodd)).pow_right 64
  obtain ⟨m, -, hm⟩ := Nat.exists_mul_mod_eq_one_of_coprime hcoprime (by norm_num)
  refine ⟨BitVec.ofNat 64 m, BitVec.eq_of_toNat_eq ?_⟩
  rw [mul_is_modular, BitVec.toNat_ofNat, Nat.mul_mod_mod, hm]
  rfl

section
variable {c d : Word}

/-- Inverse constants undo one another's multiplication (R100). -/
theorem mul_mul_cancel_of_mul_eq_one (h : c * d = 1) (x : Word) : x * c * d = x ∧ x * d * c = x := by
  rw [mul_assoc, mul_assoc, mul_comm d c, h, mul_one]
  exact ⟨rfl, rfl⟩

theorem mul_bijective_of_mul_eq_one (h : c * d = 1) : Function.Bijective fun x : Word => x * c :=
  bijective_of_leftInverse (g := fun x => x * d) fun x => (mul_mul_cancel_of_mul_eq_one h x).1

end

theorem m1_mul_inverse : m1 * 0x96de1b173f119089#64 = 1 := by decide

theorem m2_mul_inverse : m2 * 0x319642b2d24d8ec3#64 = 1 := by decide

/-! ### The inverse of `mix` -/

/-- The steps of `mix` undone, the last one first (R100, R112). -/
def unmix (v : Word) : Word :=
  undoShiftRight sh1 (undoShiftRight sh2 (undoShiftRight sh3 v * 0x319642b2d24d8ec3#64) * 0x96de1b173f119089#64)

theorem unmix_mix (v : Word) : unmix (mix v) = v := by
  unfold unmix mix
  rw [undoShiftRight_leftInverse (k := sh3) (by decide), (mul_mul_cancel_of_mul_eq_one m2_mul_inverse _).1,
    undoShiftRight_leftInverse (k := sh2) (by decide), (mul_mul_cancel_of_mul_eq_one m1_mul_inverse _).1,
    undoShiftRight_leftInverse (k := sh1) (by decide)]

/-- Settles O12: the copies of a shift step cancel, an odd constant is a unit, and `unmix_mix` undoes the steps in turn. -/
theorem datapathStepsAreInvertible : Obligations.DatapathStepsAreInvertible := by
  unfold Obligations.DatapathStepsAreInvertible
  refine ⟨fun k hk _ => ⟨fun x => ⟨?_, ?_⟩, fun x => ⟨?_, ?_⟩, ?_, ?_, ?_, ?_⟩, ?_, fun x => ?_, fun c hc => ?_, by decide,
    by decide, fun x => ?_, unmix_mix⟩
  · exact undoShiftRight_leftInverse hk x
  · exact undoShiftRight_rightInverse hk x
  · exact undoShiftLeft_leftInverse hk x
  · exact undoShiftLeft_rightInverse hk x
  · exact shiftRightStep_bijective hk
  · exact shiftLeftStep_bijective hk
  · simp
  · simp
  · rintro k (rfl | rfl | rfl | rfl) <;> decide
  · exact (undoShiftLeft_shT _).symm.trans (undoShiftLeft_leftInverse (k := shT) (by decide) x)
  · obtain ⟨d, hd⟩ := exists_mul_eq_one_of_odd hc
    exact ⟨mul_bijective_of_mul_eq_one hd, zero_mul c, d, mul_mul_cancel_of_mul_eq_one hd⟩
  · obtain ⟨h1, h1'⟩ := mul_mul_cancel_of_mul_eq_one m1_mul_inverse x
    obtain ⟨h2, h2'⟩ := mul_mul_cancel_of_mul_eq_one m2_mul_inverse x
    exact ⟨h1, h1', h2, h2'⟩

end Sys2Proof.Machine
end

section
/-!
What the Seed Expander leaves (spec/41_seed_expander.md sections 2 and 3): the four words in closed form, and from the bijection
`mix` which seeds make a word zero and that no two seeds have the same first word.
-/

namespace Sys2Proof.Machine

/-! ### `mix` as a bijection -/

theorem mix_bijective : Function.Bijective mix :=
  bijective_of_leftInverse unmix_mix

theorem mix_zero : mix 0 = 0 := by decide

theorem mix_eq_zero_iff (w : Word) : mix w = 0 ↔ w = 0 :=
  mix_bijective.injective.eq_iff' mix_zero

/-- Settles O18: `mix` can be undone, and it sends 0 to 0. -/
theorem mixIsABijectionFixingZero : Obligations.MixIsABijectionFixingZero := by
  unfold Obligations.MixIsABijectionFixingZero
  exact ⟨mix_bijective, mix_eq_zero_iff⟩

/-! ### The four words -/

/-- The words written, the multiples of the increment evaluated (R111, R114). -/
theorem expand_eq (seed : Word) (g : GenState) :
    expand seed g =
      { s0 := mix (seed + 0x9e3779b97f4a7c15#64)
        s1 := mix (seed + 0x3c6ef372fe94f82a#64)
        s2 := mix (seed + 0xdaa66d2c7ddf743f#64)
        s3 := mix (seed + 0x78dde6e5fd29f054#64) } := by
  have h2 : gamma + gamma = 0x3c6ef372fe94f82a#64 := by decide
  have h3 : 0x3c6ef372fe94f82a#64 + gamma = 0xdaa66d2c7ddf743f#64 := by decide
  have h4 : 0xdaa66d2c7ddf743f#64 + gamma = 0x78dde6e5fd29f054#64 := by decide
  rw [← h4, ← h3, ← h2]
  simp only [← BitVec.add_assoc]
  simp only [expand, slots, expandSlot, List.foldl_cons, List.foldl_nil, GenState.set_zero, GenState.set_one,
    GenState.set_two, GenState.set_three, gamma]

/-- Settles O14: `exec_initializeWith`, with the words in closed form. -/
theorem initializeClosedForm : Obligations.InitializeClosedForm := by
  unfold Obligations.InitializeClosedForm
  intro seed s
  rw [exec_initializeWith, expand_eq]
  rfl

/-- Settles O17: the increment moves from the seed to the slot's multiple. -/
theorem expansionShiftsWithTheSeed : Obligations.ExpansionShiftsWithTheSeed := by
  unfold Obligations.ExpansionShiftsWithTheSeed
  intro x g g'
  simp only [expand_eq, BitVec.add_assoc, BitVec.reduceAdd, and_self]

/-! ### Words that are zero -/

/-- The seed whose working value at the slot is zero (R121). -/
def zeroSeed : Fin 4 → Word
  | 0 => 0x61c8864680b583eb#64
  | 1 => 0xc3910c8d016b07d6#64
  | 2 => 0x255992d382208bc1#64
  | 3 => 0x8722191a02d60fac#64

theorem zeroSeed_injective : Function.Injective zeroSeed := by decide

/-- A mixed sum is zero when the seed is the opposite of the other summand. -/
theorem mix_add_eq_zero_iff {seed c z : Word} (hz : -c = z) : mix (seed + c) = 0 ↔ seed = z := by
  rw [mix_eq_zero_iff, add_eq_zero_iff_eq_neg, hz]

/-- Each slot has one seed that makes its word zero (R121). -/
theorem get_expand_eq_zero_iff (seed : Word) (g : GenState) (i : Fin 4) :
    (expand seed g).get i = 0 ↔ seed = zeroSeed i := by
  rw [expand_eq]
  fin_cases i
  · exact mix_add_eq_zero_iff (by decide)
  · exact mix_add_eq_zero_iff (by decide)
  · exact mix_add_eq_zero_iff (by decide)
  · exact mix_add_eq_zero_iff (by decide)

/-- At most one word is zero: the seeds of two slots differ (R121). -/
theorem slot_unique_of_get_expand_eq_zero {seed : Word} {g : GenState} {i j : Fin 4}
    (hi : (expand seed g).get i = 0) (hj : (expand seed g).get j = 0) : i = j :=
  zeroSeed_injective (((get_expand_eq_zero_iff seed g i).1 hi).symm.trans ((get_expand_eq_zero_iff seed g j).1 hj))

/-- No seed expands to the all-zero state (R121). -/
theorem expand_not_degenerate (seed : Word) (g : GenState) : (expand seed g).degenerate = false := by
  rw [degenerate_eq_false]
  intro h
  have hslots : (0 : Fin 4) = 1 := slot_unique_of_get_expand_eq_zero (seed := seed) (g := g) (by rw [h]; rfl) (by rw [h]; rfl)
  exact absurd hslots (by decide)

/-- Settles O19: each slot has its own seed, and two words are never zero together. -/
theorem atMostOneExpandedWordIsZero : Obligations.AtMostOneExpandedWordIsZero := by
  unfold Obligations.AtMostOneExpandedWordIsZero
  intro seed g
  have hzero := get_expand_eq_zero_iff seed g
  exact ⟨hzero 0, hzero 1, hzero 2, hzero 3, fun i j => slot_unique_of_get_expand_eq_zero, expand_not_degenerate seed g⟩

/-- Settles O20: adding the increment and `mix` are injective. -/
theorem differentSeedsExpandDifferently : Obligations.DifferentSeedsExpandDifferently := by
  unfold Obligations.DifferentSeedsExpandDifferently
  intro x y g g' hne h
  rw [expand_eq, expand_eq] at h
  exact hne (add_right_cancel (mix_bijective.injective h))

end Sys2Proof.Machine
end

section
/-!
The step of the Generator Core (spec/42_generator_core.md sections 2 and 3): its closed form, its linearity, and the recovery of
the old words from the new ones.
-/

namespace Sys2Proof.Machine

/-- The six lines, each word in terms of the old words alone (R135). -/
theorem update_closedForm (a b c d : Word) :
    update ⟨a, b, c, d⟩ =
      { s0 := a ^^^ b ^^^ d
        s1 := a ^^^ b ^^^ c
        s2 := a ^^^ c ^^^ (b <<< 17)
        s3 := rotl (b ^^^ d) 45 } := by
  rw [update_eq, GenState.mk.injEq]
  refine ⟨?_, ?_, ?_, ?_⟩
  · change a ^^^ (d ^^^ b) = _
    ac_rfl
  · change b ^^^ (c ^^^ a) = _
    ac_rfl
  · exact congrArg (· ^^^ b <<< 17) (BitVec.xor_comm c a)
  · exact congrArg (rotl · 45) (BitVec.xor_comm d b)

/-- Settles O23: `exec_nextU64`, with the words in closed form. -/
theorem nextU64ClosedForm : Obligations.NextU64ClosedForm := by
  unfold Obligations.NextU64ClosedForm
  intro s a b c d hg
  rw [exec_nextU64, hg, update_closedForm]
  rfl

theorem xor_xor_xor_exchange (a b c d : Word) : a ^^^ b ^^^ (c ^^^ d) = a ^^^ c ^^^ (b ^^^ d) := by
  ac_rfl

/-- The step of the words' exclusive or (R136). -/
theorem update_xor (a b c d a' b' c' d' : Word) :
    update ⟨a ^^^ a', b ^^^ b', c ^^^ c', d ^^^ d'⟩ =
      { s0 := (update ⟨a, b, c, d⟩).s0 ^^^ (update ⟨a', b', c', d'⟩).s0
        s1 := (update ⟨a, b, c, d⟩).s1 ^^^ (update ⟨a', b', c', d'⟩).s1
        s2 := (update ⟨a, b, c, d⟩).s2 ^^^ (update ⟨a', b', c', d'⟩).s2
        s3 := (update ⟨a, b, c, d⟩).s3 ^^^ (update ⟨a', b', c', d'⟩).s3 } := by
  simp only [update_closedForm, GenState.mk.injEq]
  refine ⟨?_, ?_, ?_, ?_⟩
  · rw [xor_xor_xor_exchange a, xor_xor_xor_exchange (a ^^^ b)]
  · rw [xor_xor_xor_exchange a, xor_xor_xor_exchange (a ^^^ b)]
  · rw [BitVec.shiftLeft_xor_distrib, xor_xor_xor_exchange a, xor_xor_xor_exchange (a ^^^ c)]
  · rw [xor_xor_xor_exchange b, rotl_xor]

/-- A carry in the sum of the words 0 and 3 is lost when they are taken apart (R136). -/
theorem output_not_xor :
    output ⟨1 ^^^ 0, 0, 0, 0 ^^^ 1⟩ ≠ output ⟨1, 0, 0, 0⟩ ^^^ output ⟨0, 0, 0, 1⟩ := by
  decide

/-- Settles O25: shift and rotation go through exclusive or; a carry in the output's sum does not. -/
theorem updateIsLinear : Obligations.UpdateIsLinear := by
  unfold Obligations.UpdateIsLinear
  exact ⟨update_xor, 1, 0, 0, 0, 0, 0, 0, 1, output_not_xor⟩

/-! ### Going back -/

/-- The old words from the new ones: the rotation is undone first, and words 1 and 2 together give the shift step of the old
word 1 (R139). -/
theorem update_recovers {a b c d p q r u e y : Word} (h : update ⟨a, b, c, d⟩ = ⟨p, q, r, u⟩) (he : e = rotl u 19)
    (hy : y = q ^^^ r) :
    a = p ^^^ e ∧ b = undoShiftLeft shT y ∧ c = q ^^^ a ^^^ b ∧ d = e ^^^ b := by
  rw [update_closedForm, GenState.mk.injEq] at h
  obtain ⟨rfl, rfl, rfl, rfl⟩ := h
  rw [rotl_rotl_of_add_eq_width (by norm_num)] at he
  have hshift : y = b ^^^ (b <<< shT) := by
    grind [shT]
  subst he
  refine ⟨?_, ?_, ?_, ?_⟩
  · grind
  · rw [hshift, undoShiftLeft_leftInverse (k := shT) (by decide)]
  · grind
  · grind

/-- The states are finitely many, four words each (R21). -/
theorem finite_genState : Finite GenState :=
  Finite.of_injective (fun g => (g.s0, g.s1, g.s2, g.s3)) fun g h hgh => by
    cases g
    cases h
    simpa using hgh

theorem update_injective : Function.Injective update := by
  intro ⟨a, b, c, d⟩ ⟨a', b', c', d'⟩ h
  obtain ⟨ha, hb, hc, hd⟩ := update_recovers h rfl rfl
  obtain ⟨ha', hb', hc', hd'⟩ := update_recovers (a := a') (b := b') (c := c') (d := d') rfl rfl rfl
  rw [GenState.mk.injEq]
  have hsame0 : a = a' := ha.trans ha'.symm
  have hsame1 : b = b' := hb.trans hb'.symm
  subst hsame0 hsame1
  exact ⟨rfl, rfl, hc.trans hc'.symm, hd.trans hd'.symm⟩

/-- Settles O26: the recovery gives injectivity, and there are finitely many states. -/
theorem updateIsABijection : Obligations.UpdateIsABijection := by
  unfold Obligations.UpdateIsABijection
  have hfinite := finite_genState
  refine ⟨Finite.injective_iff_bijective.1 update_injective, fun a b c d p q r u e y h he hy => ?_⟩
  rw [← undoShiftLeft_shT]
  exact update_recovers h he hy

end Sys2Proof.Machine
end

section
/-!
The commands by their opcodes (spec/60_exceptions.md section 4, spec/42_generator_core.md section 3, spec/10_state.md section 4):
what each kind of command does to the words, that a command that raises leaves no trace, which numbers a run draws, and that a
seeded state is never all zero again.
-/

namespace Sys2Proof.Machine

/-! ### The words after a command, opcode by opcode -/

section
variable {cw : CommandWord}

theorem wordsAfter_of_opcode_zero (h : opcodeField cw = 0) (g : GenState) :
    wordsAfter cw g = expand (dataField cw) g := by
  simp only [wordsAfter, decode_of_opcode_zero h]

theorem wordsAfter_of_opcode_one (h : opcodeField cw = 1) (g : GenState) : wordsAfter cw g = update g := by
  simp only [wordsAfter, decode_of_opcode_one h]

/-- A command that raises writes no word (R175). -/
theorem wordsAfter_of_raising (h : 2 ≤ (opcodeField cw).toNat) (g : GenState) : wordsAfter cw g = g := by
  rcases decode_cases cw with ⟨hop, -⟩ | ⟨hop, -⟩ | ⟨-, hd⟩ | ⟨-, hd⟩ | ⟨-, hd⟩ | ⟨-, hd⟩
  · simp [hop] at h
  · simp [hop] at h
  all_goals simp only [wordsAfter, hd]

/-- A command that raises answers after `LAT_NEXT` cycles (R212). -/
theorem extraCycles_of_raising (h : 2 ≤ (opcodeField cw).toNat) (l : Latencies) : extraCycles cw l = l.nextExtra := by
  have hne : opcodeField cw ≠ 0 := by rintro hop; simp [hop] at h
  have hsucc := extraCycles_succ cw l
  rw [if_neg hne] at hsucc
  exact Nat.succ.inj hsucc

/-- Every opcode is that of `initialize`, that of `next_u64` or one that raises (R62, R171). -/
theorem opcode_kinds (cw : CommandWord) :
    opcodeField cw = 0 ∨ opcodeField cw = 1 ∨ 2 ≤ (opcodeField cw).toNat := by
  generalize opcodeField cw = op
  revert op
  decide

end

/-! ### Commands that raise -/

/-- The exception of a command that raises, by its opcode (R171). -/
def causeOf (op : Opcode) : Cause := if op.toNat ≤ 4 then .unimplemented else .reservedOpcode

theorem causeOf_code {op : Opcode} (h : 2 ≤ op.toNat) :
    (causeOf op).code = 1 ∧ op.toNat ≤ 4 ∨ (causeOf op).code = 2 ∧ 5 ≤ op.toNat := by
  revert op
  decide

/-- A command that raises answers its exception, whatever the words (R65). -/
theorem answerTo_of_raising {cw : CommandWord} (h : 2 ≤ (opcodeField cw).toNat) (g : GenState) :
    answerTo cw g = .raising (causeOf (opcodeField cw)) := by
  unfold causeOf
  split_ifs with hdeclared
  · exact answerTo_of_opcode_declared h hdeclared g
  · exact answerTo_of_opcode_reserved (by omega) g

/-- A command that raises changes the handshake alone (R175). -/
theorem executeCommand_of_raising {cw : CommandWord} (h : 2 ≤ (opcodeField cw).toNat) (s : State) :
    executeCommand cw s =
      .next { s with phase := .answering s.lat.nextExtra (.raising (causeOf (opcodeField cw))) } := by
  rw [executeCommand_eq, wordsAfter_of_raising h, extraCycles_of_raising h, answerTo_of_raising h]
  rfl

/-- The commands after one that raises run as if it had not been presented (R175). -/
theorem runCommands_cons_of_raising {cw : CommandWord} (h : 2 ≤ (opcodeField cw).toNat) (cs : List CommandWord)
    (s : State) :
    runCommands (cw :: cs) s =
      (runCommands cs { s with phase := .ready }).map fun (t, rs) => (t, .raising (causeOf (opcodeField cw)) :: rs) := by
  rw [runCommands_cons, wordsAfter_of_raising h, answerTo_of_raising h]

/-- Settles O30: a reserved opcode is one that raises, its cause `ReservedOpcode`. -/
theorem reservedOpcodesRaise : Obligations.ReservedOpcodesRaise := by
  unfold Obligations.ReservedOpcodesRaise
  intro op data s hop
  have hf : opcodeField (commandWord op data) = op := opcodeField_commandWord op data
  have hraises : 2 ≤ (opcodeField (commandWord op data)).toNat := by rw [hf]; omega
  have hcause : causeOf (opcodeField (commandWord op data)) = .reservedOpcode := by
    rw [hf, causeOf, if_neg (by omega)]
  refine ⟨?_, by decide, fun cs t rs hrun => ?_⟩
  · rw [executeCommand_of_raising hraises, hcause]
    rfl
  · rw [runCommands_cons_of_raising hraises, hrun, hcause]
    rfl

/-- Settles O31: the run after the command starts from the words it found, so both runs go on alike. -/
theorem exceptionsLeaveNoTrace : Obligations.ExceptionsLeaveNoTrace := by
  unfold Obligations.ExceptionsLeaveNoTrace
  intro op data s hop
  have hf : opcodeField (commandWord op data) = op := opcodeField_commandWord op data
  have hraises : 2 ≤ (opcodeField (commandWord op data)).toNat := by rwa [hf]
  refine ⟨causeOf op, ?_, causeOf_code hop, fun before after => ?_⟩
  · rw [executeCommand_of_raising hraises, hf]
    rfl
  · have hwith := runCommands_eq (before ++ commandWord op data :: after) { s with phase := .ready }
    have hwithout := runCommands_eq (before ++ after) { s with phase := .ready }
    rw [wordsAfterAll_append, answersTo_append] at hwith hwithout
    rw [wordsAfterAll_cons, answersTo_cons, wordsAfter_of_raising hraises, answerTo_of_raising hraises, hf] at hwith
    simp only [ite_self] at hwith hwithout
    exact ⟨_, _, _, hwithout, hwith, answersTo_length _ _⟩

/-- Settles O32: every instruction answers by `State.respond`, and the declared ones give it the old words. -/
theorem commandsLeaveTheRestAlone : Obligations.CommandsLeaveTheRestAlone := by
  unfold Obligations.CommandsLeaveTheRestAlone
  intro i s
  cases i with
  | initializeWith seed => exact ⟨_, exec_initializeWith seed s, rfl, rfl, rfl, by simp⟩
  | nextU64 => exact ⟨_, exec_nextU64 s, rfl, rfl, rfl, by simp⟩
  | nextU32 => exact ⟨_, exec_declared _ s (by simp), rfl, rfl, rfl, fun _ => rfl⟩
  | nextF32 => exact ⟨_, exec_declared _ s (by simp), rfl, rfl, rfl, fun _ => rfl⟩
  | nextF64 => exact ⟨_, exec_declared _ s (by simp), rfl, rfl, rfl, fun _ => rfl⟩

/-- Settles O34: words and responses of a run are functions of the commands and the words alone. -/
theorem responsesDoNotDependOnLatency : Obligations.ResponsesDoNotDependOnLatency := by
  unfold Obligations.ResponsesDoNotDependOnLatency
  exact fun cs s l => ⟨_, _, _, runCommands_eq cs s, runCommands_eq cs { s with lat := l }, rfl⟩

/-! ### The numbers drawn -/

/-- The commands that draw a number. -/
def draws (cs : List CommandWord) : Nat := cs.countP fun cw => opcodeField cw == 1

/-- The results of a run: the values answered with `OK`. -/
def results (rs : List Response) : List Word := (rs.filter fun r => r.status == .ok).map Response.value

theorem results_okWith_cons (v : Word) (rs : List Response) : results (.okWith v :: rs) = v :: results rs := rfl

theorem results_raising_cons (c : Cause) (rs : List Response) : results (.raising c :: rs) = results rs := rfl

theorem draws_cons_of_opcode_one {cw : CommandWord} (h : opcodeField cw = 1) (cs : List CommandWord) :
    draws (cw :: cs) = draws cs + 1 := by
  simp [draws, h]

theorem draws_cons_of_raising {cw : CommandWord} (h : 2 ≤ (opcodeField cw).toNat) (cs : List CommandWord) :
    draws (cw :: cs) = draws cs := by
  have hne : opcodeField cw ≠ 1 := by rintro hop; simp [hop] at h
  exact List.countP_cons_of_neg (by simpa using hne)

theorem neverSeeds_cons (cw : CommandWord) (cs : List CommandWord) :
    neverSeeds (cw :: cs) = true ↔ opcodeField cw ≠ 0 ∧ neverSeeds cs = true := by
  simp [neverSeeds]

/-- Without an `initialize` the words advance once for each number drawn (R134). -/
theorem wordsAfterAll_of_neverSeeds {cs : List CommandWord} (h : neverSeeds cs = true) (g : GenState) :
    wordsAfterAll cs g = update^[draws cs] g := by
  induction cs generalizing g with
  | nil => rfl
  | cons cw cs ih =>
    obtain ⟨hne, hcs⟩ := (neverSeeds_cons cw cs).1 h
    rw [wordsAfterAll_cons, ih hcs]
    rcases opcode_kinds cw with hop | hop | hop
    · exact absurd hop hne
    · rw [wordsAfter_of_opcode_one hop, draws_cons_of_opcode_one hop, Function.iterate_succ_apply]
    · rw [wordsAfter_of_raising hop, draws_cons_of_raising hop]

/-- Without an `initialize` the results are the outputs of the states passed, in order (R134). -/
theorem results_answersTo_of_neverSeeds {cs : List CommandWord} (h : neverSeeds cs = true) (g : GenState) :
    results (answersTo cs g) = (List.range (draws cs)).map fun n => output (update^[n] g) := by
  induction cs generalizing g with
  | nil => rfl
  | cons cw cs ih =>
    obtain ⟨hne, hcs⟩ := (neverSeeds_cons cw cs).1 h
    rw [answersTo_cons]
    rcases opcode_kinds cw with hop | hop | hop
    · exact absurd hop hne
    · rw [answerTo_of_opcode_one hop, wordsAfter_of_opcode_one hop, results_okWith_cons, ih hcs,
        draws_cons_of_opcode_one hop, List.range_succ_eq_map, List.map_cons, List.map_map]
      rfl
    · rw [answerTo_of_raising hop, wordsAfter_of_raising hop, results_raising_cons, ih hcs, draws_cons_of_raising hop]

/-- Settles O28: the commands start from the seed's expansion, the first state of its stream. -/
theorem drawsFollowTheStream : Obligations.DrawsFollowTheStream := by
  unfold Obligations.DrawsFollowTheStream
  intro seed cs s hcs
  have hrun := runCommands_eq (encode (.initializeWith seed) :: cs) s
  rw [answersTo_cons, wordsAfterAll_cons, answerTo_initializeWith, wordsAfter_initializeWith seed _ GenState.zero] at hrun
  exact ⟨_, _, hrun, wordsAfterAll_of_neverSeeds hcs _, results_answersTo_of_neverSeeds hcs _⟩

/-! ### The all-zero state -/

theorem update_zero : update ⟨0, 0, 0, 0⟩ = ⟨0, 0, 0, 0⟩ := by decide

/-- The step of the generator neither enters nor leaves the all-zero state: it is injective and keeps it (R138). -/
theorem update_degenerate (g : GenState) : (update g).degenerate = g.degenerate := by
  have hzero : update g = ⟨0, 0, 0, 0⟩ ↔ g = ⟨0, 0, 0, 0⟩ := update_injective.eq_iff' update_zero
  exact Bool.eq_iff_iff.2 (beq_iff_eq.trans (hzero.trans beq_iff_eq.symm))

/-- An `initialize` leaves words that are not all zero, whatever they were (R121). -/
theorem wordsAfter_not_degenerate_of_opcode_zero {cw : CommandWord} (h : opcodeField cw = 0) (g : GenState) :
    (wordsAfter cw g).degenerate = false := by
  rw [wordsAfter_of_opcode_zero h]
  exact expand_not_degenerate _ _

/-- No command enters the all-zero state (R26). -/
theorem wordsAfter_not_degenerate (cw : CommandWord) {g : GenState} (h : g.degenerate = false) :
    (wordsAfter cw g).degenerate = false := by
  rcases opcode_kinds cw with hop | hop | hop
  · exact wordsAfter_not_degenerate_of_opcode_zero hop g
  · rwa [wordsAfter_of_opcode_one hop, update_degenerate]
  · rwa [wordsAfter_of_raising hop]

theorem wordsAfterAll_not_degenerate (cs : List CommandWord) {g : GenState} (h : g.degenerate = false) :
    (wordsAfterAll cs g).degenerate = false := by
  induction cs generalizing g with
  | nil => exact h
  | cons cw cs ih => exact ih (wordsAfter_not_degenerate cw h)

/-- Settles O51: the `initialize` leaves the all-zero state and no later command enters it. -/
theorem onceSeededNeverAllZero : Obligations.OnceSeededNeverAllZero := by
  unfold Obligations.OnceSeededNeverAllZero
  intro seed before after s
  refine ⟨_, _, runCommands_eq _ s, (degenerate_eq_false _).1 ?_⟩
  rw [wordsAfterAll_append, wordsAfterAll_cons]
  exact wordsAfterAll_not_degenerate after (wordsAfter_not_degenerate_of_opcode_zero (opcodeField_commandWord 0 seed) _)

/-- Only an `initialize` leaves the all-zero state (R138). -/
theorem wordsAfter_zero {cw : CommandWord} (h : opcodeField cw ≠ 0) : wordsAfter cw ⟨0, 0, 0, 0⟩ = ⟨0, 0, 0, 0⟩ := by
  rcases opcode_kinds cw with hop | hop | hop
  · exact absurd hop h
  · rw [wordsAfter_of_opcode_one hop, update_zero]
  · exact wordsAfter_of_raising hop _

/-- From the all-zero state every response has value 0 (R138). -/
theorem answerTo_zero_value (cw : CommandWord) : (answerTo cw ⟨0, 0, 0, 0⟩).value = 0 := by
  have houtput : output ⟨0, 0, 0, 0⟩ = 0 := by decide
  rcases opcode_kinds cw with hop | hop | hop
  · rw [answerTo_of_opcode_zero hop]
    rfl
  · rw [answerTo_of_opcode_one hop, houtput]
    rfl
  · rw [answerTo_of_raising hop]
    rfl

theorem run_from_zero_of_neverSeeds {cs : List CommandWord} (h : neverSeeds cs = true) :
    wordsAfterAll cs ⟨0, 0, 0, 0⟩ = ⟨0, 0, 0, 0⟩ ∧ ∀ r ∈ answersTo cs ⟨0, 0, 0, 0⟩, r.value = 0 := by
  induction cs with
  | nil => exact ⟨rfl, by simp⟩
  | cons cw cs ih =>
    obtain ⟨hne, hcs⟩ := (neverSeeds_cons cw cs).1 h
    obtain ⟨hwords, hanswers⟩ := ih hcs
    rw [wordsAfterAll_cons, answersTo_cons, wordsAfter_zero hne]
    exact ⟨hwords, List.forall_mem_cons.2 ⟨answerTo_zero_value cw, hanswers⟩⟩

/-! ### Seeding first -/

/-- The first command seeds, or it raises and the rest seeds first: it does not draw (R203). -/
theorem seedsFirst_cons_iff (cw : CommandWord) (cs : List CommandWord) :
    seedsFirst (cw :: cs) = true ↔
      opcodeField cw = 0 ∨ 2 ≤ (opcodeField cw).toNat ∧ seedsFirst cs = true := by
  rcases decode_cases cw with ⟨hop, hd⟩ | ⟨hop, hd⟩ | ⟨hop, hd⟩ | ⟨hop, hd⟩ | ⟨hop, hd⟩ | ⟨hop, hd⟩
  case inr.inr.inr.inr.inr =>
    have hne : ¬ opcodeField cw = 0 := by rintro h; simp [h] at hop
    have hraises : 2 ≤ (opcodeField cw).toNat := by omega
    simp only [seedsFirst, hd, hne, hraises, true_and, false_or]
  all_goals simp [seedsFirst, hd, hop]

/-- When the commands seed first, the words before them do not show in the responses (R203). -/
theorem answersTo_congr_of_seedsFirst {cs : List CommandWord} (h : seedsFirst cs = true) (g g' : GenState) :
    answersTo cs g = answersTo cs g' := by
  induction cs with
  | nil => rfl
  | cons cw cs ih =>
    rw [answersTo_cons, answersTo_cons]
    rcases (seedsFirst_cons_iff cw cs).1 h with hop | ⟨hop, hcs⟩
    · rw [answerTo_of_opcode_zero hop, answerTo_of_opcode_zero hop, wordsAfter_of_opcode_zero hop,
        wordsAfter_of_opcode_zero hop, expand_congr _ g g']
    · rw [answerTo_of_raising hop, answerTo_of_raising hop, wordsAfter_of_raising hop, wordsAfter_of_raising hop, ih hcs]

/-- When the commands seed first, the words at a draw are not all zero (R205). -/
theorem wordsAfterAll_not_degenerate_of_seedsFirst {before after : List CommandWord} {cw : CommandWord}
    (hdraw : opcodeField cw = 1) (h : seedsFirst (before ++ cw :: after) = true) (g : GenState) :
    (wordsAfterAll before g).degenerate = false := by
  induction before generalizing g with
  | nil => simp [seedsFirst_cons_iff, hdraw] at h
  | cons first before ih =>
    rw [wordsAfterAll_cons]
    rcases (seedsFirst_cons_iff first _).1 h with hop | ⟨-, hrest⟩
    · exact wordsAfterAll_not_degenerate before (wordsAfter_not_degenerate_of_opcode_zero hop g)
    · exact ih hrest _

/-- Settles O52: before the seed come only commands that raise, and after it the words are not all zero. -/
theorem seedingFirstHidesTheResetState : Obligations.SeedingFirstHidesTheResetState := by
  unfold Obligations.SeedingFirstHidesTheResetState
  refine ⟨fun cs s t h => ?_, fun before after data s h => ⟨_, _, runCommands_eq before s, ?_⟩⟩
  · have hs := runCommands_eq cs s
    rw [answersTo_congr_of_seedsFirst h s.gen t.gen] at hs
    exact ⟨_, _, _, hs, runCommands_eq cs t⟩
  · exact wordsAfterAll_not_degenerate_of_seedsFirst (opcodeField_commandWord 1 data) h s.gen

end Sys2Proof.Machine
end

section
/-!
The handshake (spec/70_reset_and_hazards.md sections 1, 4 and 5): what an edge without reset does, told by what passes over the two
channels, and from that what runs of edges transfer, hold and answer.
-/

namespace Sys2Proof.Machine

/-! ### What the pins transfer, phase by phase -/

section
variable {s : State}

/-- A ready block takes the command presented at an edge without reset (R71). -/
theorem accepts_of_ready (hr : (nextEdge s).pins.rst = false) (hp : s.phase = .ready)
    (hv : (nextEdge s).pins.cmdValid = true) : s.accepts = some (nextEdge s).pins.command := by
  simp [State.accepts, State.cmdReady, hr, hp, hv]

theorem accepts_of_answering {n : Nat} {r : Response} (hp : s.phase = .answering n r) : s.accepts = none :=
  accepts_eq_none_of_not_cmdReady (by simp [State.cmdReady, hp])

theorem pending_of_answering {n : Nat} {r : Response} (hp : s.phase = .answering n r) : s.pending = some r := by
  simp [State.pending, hp]

/-- The response on the pins is given to a host that is ready for it (R71). -/
theorem delivers_of_taken {r : Response} (hr : (nextEdge s).pins.rst = false) (hp : s.phase = .answering 0 r)
    (hv : (nextEdge s).pins.rspReady = true) : s.delivers = some r := by
  simp [State.delivers, State.rsp, hr, hp, hv]

theorem delivers_of_held (hv : (nextEdge s).pins.rspReady = false) : s.delivers = none := by
  simp [State.delivers, hv]

theorem delivers_of_waiting {n : Nat} {r : Response} (hp : s.phase = .answering (n + 1) r) : s.delivers = none := by
  simp [State.delivers, State.rsp, hp]

/-- The whole next state of a transfer (R44, R209). -/
theorem step_of_accepts {cw : CommandWord} (h : s.accepts = some cw) :
    step s = .next ((pastEdge s).respond (wordsAfter cw s.gen) (extraCycles cw s.lat) (answerTo cw s.gen)) := by
  obtain ⟨hr, hp, hv, rfl⟩ := accepts_some h
  rw [step_of_transfer hr hp hv, executeCommand_eq]
  rfl

theorem pending_eq_none_of_accepts {cw : CommandWord} (h : s.accepts = some cw) : s.pending = none :=
  pending_eq_none_iff.2 (.inr (accepts_some h).2.1)

end

/-! ### An edge without reset -/

/-- The state after an edge without reset, by what the edge transfers (R71, R209, R210). -/
inductive RunningStep (s : State) : State → Prop
  /-- A command is transferred and executed. -/
  | transfer (cw : CommandWord) (accepts : s.accepts = some cw) (delivers : s.delivers = none)
      (pending : s.pending = none) :
      RunningStep s ((pastEdge s).respond (wordsAfter cw s.gen) (extraCycles cw s.lat) (answerTo cw s.gen))
  /-- Nothing is in flight and nothing is transferred. -/
  | idle (accepts : s.accepts = none) (delivers : s.delivers = none) (pending : s.pending = none) :
      RunningStep s ((pastEdge s).withPhase .ready)
  /-- A response is in flight and is not transferred: it comes nearer or is held. -/
  | inFlight (n m : Nat) (r : Response) (phase : s.phase = .answering n r) (nearer : m ≤ n)
      (accepts : s.accepts = none) (delivers : s.delivers = none) :
      RunningStep s ((pastEdge s).withPhase (.answering m r))
  /-- The response in flight is transferred. -/
  | given (r : Response) (pending : s.pending = some r) (accepts : s.accepts = none) (delivers : s.delivers = some r) :
      RunningStep s ((pastEdge s).withPhase .ready)

/-- Every edge without reset does one of these (R200, R209, R210). -/
theorem exists_runningStep {s : State} (hr : (nextEdge s).pins.rst = false) :
    ∃ t, step s = .next t ∧ RunningStep s t := by
  rcases hp : s.pending with _ | r
  · have hd := delivers_eq_none_of_pending_eq_none hp
    rcases ha : s.accepts with _ | cw
    · exact ⟨_, step_of_nothing_in_flight hp hr ha, .idle ha hd hp⟩
    · exact ⟨_, step_of_accepts ha, .transfer cw ha hd hp⟩
  · rcases hphase : s.phase with _ | _ | ⟨_ | n, r'⟩
    · simp [State.pending, hphase] at hp
    · simp [State.pending, hphase] at hp
    · obtain rfl := Option.some.inj ((pending_of_answering hphase).symm.trans hp)
      have ha := accepts_of_answering hphase
      rcases hv : (nextEdge s).pins.rspReady
      · have hsame : (pastEdge s).withPhase (.answering 0 r') = pastEdge s := by rw [← hphase]; rfl
        exact ⟨_, hsame ▸ step_of_held hr hphase hv, .inFlight 0 0 r' hphase le_rfl ha (delivers_of_held hv)⟩
      · exact ⟨_, step_of_taken hr hphase hv, .given r' hp ha (delivers_of_taken hr hphase hv)⟩
    · exact ⟨_, step_of_waiting hr hphase, .inFlight (n + 1) n r' hphase (Nat.le_succ n) (accepts_of_answering hphase)
        (delivers_of_waiting hphase)⟩

section
variable {s t : State}

/-- Apart from the words and the handshake the edge alone is gone. -/
theorem RunningStep.frame (h : RunningStep s t) : t.aux = s.aux ∧ t.lat = s.lat ∧ t.inputs = s.inputs.tail := by
  cases h <;> exact ⟨rfl, rfl, rfl⟩

/-- The words change by the command transferred, if any (R210). -/
theorem RunningStep.gen_eq (h : RunningStep s t) : t.gen = wordsAfterAll s.accepts.toList s.gen := by
  cases h with
  | transfer cw accepts => rw [accepts]; rfl
  | idle accepts => rw [accepts]; rfl
  | inFlight n m r phase nearer accepts => rw [accepts]; rfl
  | given r pending accepts => rw [accepts]; rfl

/-- No response is lost or made up: what was in flight and what the command transferred answers is what is given and what is
still in flight (R209). -/
theorem RunningStep.responses_eq (h : RunningStep s t) :
    s.pending.toList ++ answersTo s.accepts.toList s.gen = s.delivers.toList ++ t.pending.toList := by
  cases h with
  | transfer cw accepts delivers pending => rw [accepts, delivers, pending]; rfl
  | idle accepts delivers pending => rw [accepts, delivers, pending]; rfl
  | inFlight n m r phase nearer accepts delivers => rw [accepts, delivers, pending_of_answering phase]; rfl
  | given r pending accepts delivers => rw [accepts, delivers, pending]; rfl

end

/-- Settles O37: a reset edge is free in the words, and any other edge changes them by the command it transfers. -/
theorem stepIsTotalAndOnlyCommandsWrite : Obligations.StepIsTotalAndOnlyCommandsWrite := by
  unfold Obligations.StepIsTotalAndOnlyCommandsWrite
  intro s
  rcases hr : (nextEdge s).pins.rst
  · obtain ⟨t, hstep, hrun⟩ := exists_runningStep hr
    obtain ⟨haux, hlat, hinputs⟩ := hrun.frame
    refine ⟨t, hstep, hlat, hinputs, fun _ => haux, fun _ honly => ?_⟩
    rw [hrun.gen_eq]
    rcases ha : s.accepts with _ | cw
    · rfl
    · obtain ⟨hne0, hne1⟩ := honly cw ha
      exact wordsAfter_of_raising (((opcode_kinds cw).resolve_left hne0).resolve_left hne1) _
  · exact ⟨_, step_of_reset hr, rfl, rfl, nofun, nofun⟩

/-- Settles O27: no command but an `initialize` leaves the words when all are zero, and an edge without reset changes them by
the command it transfers alone. -/
theorem allZeroStateIsAFixedPoint : Obligations.AllZeroStateIsAFixedPoint := by
  unfold Obligations.AllZeroStateIsAFixedPoint
  refine ⟨fun cs s hzero hcs => ?_, fun s hzero hr honly => ?_⟩
  · have hrun := runCommands_eq cs s
    obtain ⟨hwords, hanswers⟩ := run_from_zero_of_neverSeeds hcs
    rw [hzero] at hrun
    exact ⟨_, _, hrun, hwords, answersTo_length _ _, hanswers⟩
  · obtain ⟨t, hstep, hrun⟩ := exists_runningStep hr
    refine ⟨t, hstep, ?_⟩
    rw [hrun.gen_eq, hzero]
    rcases ha : s.accepts with _ | cw
    · rfl
    · exact wordsAfter_zero (honly cw ha)

/-! ### The presented word -/

theorem command_of_fields {p : Pins} {cw : CommandWord} (hop : p.cmdOp = opcodeField cw)
    (hdata : p.cmdData = dataField cw) : p.command = cw := by
  rw [Pins.command, hop, hdata, commandWord_fields]

theorem executeCommand_of_decode_ok {cw : CommandWord} {i : Instr} (h : decode cw = .ok i) (s : State) :
    executeCommand cw s = exec i s := by
  simp only [executeCommand, h]

theorem executeCommand_of_decode_error {cw : CommandWord} {op : Opcode}
    (h : decode cw = .error (.reservedOpcode op)) (s : State) : executeCommand cw s = raise .reservedOpcode s := by
  simp only [executeCommand, h]

/-- Settles O35: the edge transfers the word, which the decoder reads. -/
theorem stepRunsThePresentedCommand : Obligations.StepRunsThePresentedCommand := by
  unfold Obligations.StepRunsThePresentedCommand
  intro s e es cw hp hin hr hv hop hdata
  have he : nextEdge s = e := nextEdge_of_inputs_cons hin
  have hpast : pastEdge s = { s with inputs := es } := by rw [pastEdge, hin]; rfl
  have hcommand : e.pins.command = cw := command_of_fields hop hdata
  have hstep : step s = executeCommand cw { s with inputs := es } := by
    rw [step_of_transfer (by rwa [he]) hp (by rwa [he]), he, hcommand, hpast]
  refine ⟨fun i hd => ?_, fun op hd => ?_⟩
  · rw [hstep, executeCommand_of_decode_ok hd]
  · rw [hstep, executeCommand_of_decode_error hd]
    rfl

/-- A table word is read by the decoder as the command word of its bits (R68). -/
theorem decode_of_decodeTableWord {nbits w : Nat} {i : Instr} (h : decodeTableWord nbits w = some i) :
    decode (BitVec.ofNat 68 w) = .ok i := by
  unfold decodeTableWord tableCommandWord at h
  split_ifs at h
  rcases hd : decode (BitVec.ofNat 68 w) with e | j
  · simp [hd] at h
  · simpa [hd] using h

/-- Settles O36: the edge placed first presents the word to a ready block. -/
theorem fetchWordIsRunNext : Obligations.FetchWordIsRunNext := by
  unfold Obligations.FetchWordIsRunNext
  intro s nbits w i h
  have hcommand : (Pins.presenting (BitVec.ofNat 68 w)).command = BitVec.ofNat 68 w := command_of_fields rfl rfl
  have hstep := step_of_transfer (s := s.withFetchWord nbits w) rfl rfl rfl
  exact hstep.trans ((congrArg (executeCommand · _) hcommand).trans
    (executeCommand_of_decode_ok (decode_of_decodeTableWord h) _))

/-! ### Runs of edges -/

/-- A run one edge longer. -/
theorem observe_succ_of_observe {k : Nat} {s t u : State} {tr : Traffic} (hstep : step s = .next t)
    (h : observe k t = some (u, tr)) :
    observe (k + 1) s = some (u, ⟨s.accepts.toList ++ tr.commands, s.delivers.toList ++ tr.responses⟩) := by
  rw [observe_succ k hstep, h]
  rfl

/-- Over edges without reset the words are those of the commands transferred, and the responses given and the one still in
flight are theirs, after the one that was in flight (R209). -/
theorem exists_observe_of_resetFree {k : Nat} {s : State} (hf : s.resetFree k = true) :
    ∃ t tr, observe k s = some (t, tr) ∧ t.gen = wordsAfterAll tr.commands s.gen ∧ t.aux = s.aux ∧
      s.pending.toList ++ answersTo tr.commands s.gen = tr.responses ++ t.pending.toList := by
  induction k generalizing s with
  | zero => exact ⟨s, _, observe_zero s, rfl, rfl, by simp⟩
  | succ k ih =>
    obtain ⟨hr, hrest⟩ := resetFree_succ hf
    obtain ⟨t, hstep, hrun⟩ := exists_runningStep hr
    obtain ⟨haux, -, hinputs⟩ := hrun.frame
    obtain ⟨u, tr, hobs, hgen, haux', hresponses⟩ := ih (hrest t hinputs)
    refine ⟨u, _, observe_succ_of_observe hstep hobs, ?_, haux'.trans haux, ?_⟩
    · rw [hgen, hrun.gen_eq, wordsAfterAll_append]
    · rw [answersTo_append, ← hrun.gen_eq, ← List.append_assoc, hrun.responses_eq, List.append_assoc, hresponses,
        List.append_assoc]

/-- Settles O45: with nothing in flight at first, the responses are those of the commands transferred alone. -/
theorem pinRunsRefineCommandRuns : Obligations.PinRunsRefineCommandRuns := by
  unfold Obligations.PinRunsRefineCommandRuns
  intro k s hp hf
  obtain ⟨t, tr, hobs, hgen, haux, hresponses⟩ := exists_observe_of_resetFree hf
  rw [hp] at hresponses
  exact ⟨t, _, tr, _, hobs, runCommands_eq tr.commands s, hgen, haux, hresponses⟩

/-! ### The response in flight -/

theorem rsp_of_answering_zero {s : State} {r : Response} (hp : s.phase = .answering 0 r) : s.rsp = some r := by
  simp [State.rsp, hp]

theorem cmdReady_of_answering {s : State} {n : Nat} {r : Response} (hp : s.phase = .answering n r) :
    s.cmdReady = false := by
  simp [State.cmdReady, hp]

/-- A host that takes no response at the listed edges does not take one at the next (R71). -/
theorem rspReady_eq_false_of_take_succ {k : Nat} {s : State}
    (h : ((s.inputs.take (k + 1)).all fun e => !e.pins.rspReady) = true) :
    (nextEdge s).pins.rspReady = false ∧ ((s.inputs.tail.take k).all fun e => !e.pins.rspReady) = true := by
  cases hin : s.inputs with
  | nil => exact ⟨by simp [nextEdge, hin, Edge.ofPins, Pins.quiet], by simp⟩
  | cons e es =>
    simp only [hin, List.take_succ_cons, List.all_cons, Bool.and_eq_true, Bool.not_eq_true'] at h
    exact ⟨by rw [nextEdge_of_inputs_cons hin, h.1], h.2⟩

/-- A response on the pins stays there while the host takes none (R209). -/
theorem observe_held {k : Nat} {s : State} {r : Response} (hp : s.phase = .answering 0 r) (hf : s.resetFree k = true)
    (hheld : ((s.inputs.take k).all fun e => !e.pins.rspReady) = true) :
    ∃ t, observe k s = some (t, ⟨[], []⟩) ∧ t.phase = .answering 0 r := by
  induction k generalizing s with
  | zero => exact ⟨s, observe_zero s, hp⟩
  | succ k ih =>
    obtain ⟨hr, hrest⟩ := resetFree_succ hf
    obtain ⟨hv, hheld'⟩ := rspReady_eq_false_of_take_succ hheld
    obtain ⟨t, hobs, hphase⟩ := ih (s := pastEdge s) hp (hrest _ rfl) hheld'
    have hobs' := observe_succ_of_observe (step_of_held hr hp hv) hobs
    rw [accepts_of_answering hp, delivers_of_held hv] at hobs'
    exact ⟨t, hobs', hphase⟩

/-- Settles O41: a transfer puts its response in flight; on the pins it is held; and an edge without reset keeps it or gives
it. -/
theorem handshakeHoldsTheResponse : Obligations.HandshakeHoldsTheResponse := by
  unfold Obligations.HandshakeHoldsTheResponse
  refine ⟨fun s cw ha => ?_, fun k s r hrsp hf hheld => ?_, fun s r hp hr => ?_⟩
  · exact ⟨pending_eq_none_of_accepts ha, _, _, step_of_accepts ha, rfl, rfl⟩
  · obtain ⟨t, hobs, hphase⟩ := observe_held (rsp_some hrsp) hf hheld
    exact ⟨t, _, hobs, rsp_of_answering_zero hphase, cmdReady_of_answering hphase, rfl, rfl⟩
  · obtain ⟨t, hstep, hrun⟩ := exists_runningStep hr
    refine ⟨t, hstep, ?_⟩
    cases hrun with
    | transfer cw accepts delivers pending => simp [pending] at hp
    | idle accepts delivers pending => simp [pending] at hp
    | inFlight n m r' phase nearer accepts delivers =>
      have hsame : some r' = some r := (pending_of_answering phase).symm.trans hp
      exact ⟨fun _ => ⟨hsame, rfl⟩, by simp [delivers]⟩
    | given r' pending accepts delivers =>
      have hsame : some r' = some r := pending.symm.trans hp
      refine ⟨by simp [delivers], fun r'' hd => ⟨?_, rfl⟩⟩
      exact Option.some.inj (hd.symm.trans (delivers.trans hsame))

/-! ### Latency -/

/-- After a transfer the response comes nearer by one cycle with each edge (R212). -/
theorem observe_of_accepts {m : Nat} {s : State} {cw : CommandWord} (ha : s.accepts = some cw)
    (hm : m ≤ extraCycles cw s.lat) (hf : s.resetFree (m + 1) = true) :
    ∃ t tr, observe (m + 1) s = some (t, tr) ∧
      t.phase = .answering (extraCycles cw s.lat - m) (answerTo cw s.gen) ∧ t.gen = wordsAfter cw s.gen := by
  obtain ⟨-, hrest⟩ := resetFree_succ hf
  have hcount : Phase.answering (extraCycles cw s.lat) (answerTo cw s.gen) =
      .answering (extraCycles cw s.lat - m + m) (answerTo cw s.gen) := by rw [Nat.sub_add_cancel hm]
  exact ⟨_, _, observe_succ_of_observe (step_of_accepts ha) (observe_waiting m _ _ _ hcount (hrest _ rfl)), rfl, rfl⟩

theorem resetFree_of_le {m n : Nat} {s : State} (h : m ≤ n) (hf : s.resetFree n = true) : s.resetFree m = true := by
  unfold State.resetFree at *
  rw [List.all_eq_true] at *
  exact fun e he => hf e ((List.take_subset_take_left s.inputs h) he)

theorem rspValid_of_answering_zero {s : State} {r : Response} (hp : s.phase = .answering 0 r) : s.rspValid = true := by
  simp [State.rspValid, State.rsp, hp]

theorem rspValid_of_answering_succ {s : State} {n : Nat} {r : Response} (hp : s.phase = .answering (n + 1) r) :
    s.rspValid = false := by
  simp [State.rspValid, State.rsp, hp]

/-- Settles O42: `extraCycles` is the latency less one, counted down by `observe_of_accepts`. -/
theorem responseComesAfterTheLatency : Obligations.ResponseComesAfterTheLatency := by
  unfold Obligations.ResponseComesAfterTheLatency
  intro s cw n ha hn hf
  rw [← extraCycles_succ] at hn
  subst hn
  refine ⟨fun m hlo hhi => ?_, ?_⟩
  · obtain ⟨m, rfl⟩ := Nat.exists_eq_add_of_le' hlo
    obtain ⟨t, tr, hobs, hphase, -⟩ := observe_of_accepts ha (by omega) (resetFree_of_le hhi.le hf)
    obtain ⟨w, hw⟩ : ∃ w, extraCycles cw s.lat - m = w + 1 := ⟨extraCycles cw s.lat - m - 1, by omega⟩
    rw [hw] at hphase
    exact ⟨t, tr, hobs, rspValid_of_answering_succ hphase, cmdReady_of_answering hphase⟩
  · obtain ⟨t, tr, hobs, hphase, hgen⟩ := observe_of_accepts ha le_rfl hf
    rw [Nat.sub_self] at hphase
    exact ⟨t, _, tr, hobs, executeCommand_eq cw _, rspValid_of_answering_zero hphase, rsp_of_answering_zero hphase, hgen⟩

/-! ### A command kept presented -/

/-- At the next `n` edges the host presents the command, takes responses at once and does not reset the block. -/
def keepsPresenting (cw : CommandWord) (n : Nat) (s : State) : Prop :=
  n ≤ s.inputs.length ∧ ∀ e ∈ s.inputs.take n,
    e.pins.rst = false ∧ e.pins.rspReady = true ∧ e.pins.cmdValid = true ∧ e.pins.command = cw

theorem keepsPresenting_succ {cw : CommandWord} {n : Nat} {s : State} (h : keepsPresenting cw (n + 1) s) :
    ((nextEdge s).pins.rst = false ∧ (nextEdge s).pins.rspReady = true ∧ (nextEdge s).pins.cmdValid = true ∧
      (nextEdge s).pins.command = cw) ∧
    ∀ t : State, t.inputs = s.inputs.tail → keepsPresenting cw n t := by
  obtain ⟨hlen, hedges⟩ := h
  cases hin : s.inputs with
  | nil => simp [hin] at hlen
  | cons e es =>
    rw [hin, List.length_cons, Nat.add_le_add_iff_right] at hlen
    rw [hin, List.take_succ_cons, List.forall_mem_cons] at hedges
    rw [nextEdge_of_inputs_cons hin]
    exact ⟨hedges.1, fun t ht => by rw [keepsPresenting, ht]; exact ⟨hlen, hedges.2⟩⟩

section
variable {cw : CommandWord} {s : State}

theorem observe_presenting_of_ready (hp : s.phase = .ready) (h : keepsPresenting cw 1 s) :
    ∃ t, observe 1 s = some (t, ⟨[cw], []⟩) := by
  obtain ⟨⟨hr, -, hv, hcommand⟩, -⟩ := keepsPresenting_succ h
  have ha := accepts_of_ready hr hp hv
  have hobs := observe_succ_of_observe (step_of_accepts ha) (observe_zero _)
  rw [ha, hcommand, delivers_eq_none_of_pending_eq_none (pending_eq_none_iff.2 (.inr hp))] at hobs
  exact ⟨_, hobs⟩

theorem observe_presenting_of_starting (hp : s.phase = .starting) (h : keepsPresenting cw 2 s) :
    ∃ t, observe 2 s = some (t, ⟨[cw], []⟩) := by
  obtain ⟨⟨hr, -, -, -⟩, hrest⟩ := keepsPresenting_succ h
  obtain ⟨t, hobs⟩ := observe_presenting_of_ready (s := (pastEdge s).withPhase .ready) rfl (hrest _ rfl)
  have hobs' := observe_succ_of_observe (step_of_starting hr hp) hobs
  rw [accepts_eq_none_of_not_cmdReady (by simp [State.cmdReady, hp]),
    delivers_eq_none_of_pending_eq_none (pending_eq_none_iff.2 (.inl hp))] at hobs'
  exact ⟨t, hobs'⟩

/-- The answer in flight counts down, is given, and the command is taken at the edge after that (R209). -/
theorem observe_presenting_of_answering {w : Nat} {r : Response} (hp : s.phase = .answering w r)
    (h : keepsPresenting cw (w + 2) s) : ∃ t, observe (w + 2) s = some (t, ⟨[cw], [r]⟩) := by
  induction w generalizing s with
  | zero =>
    obtain ⟨⟨hr, hv, -, -⟩, hrest⟩ := keepsPresenting_succ h
    obtain ⟨t, hobs⟩ := observe_presenting_of_ready (s := (pastEdge s).withPhase .ready) rfl (hrest _ rfl)
    have hobs' := observe_succ_of_observe (step_of_taken hr hp hv) hobs
    rw [accepts_of_answering hp, delivers_of_taken hr hp hv] at hobs'
    exact ⟨t, hobs'⟩
  | succ w ih =>
    obtain ⟨⟨hr, -, -, -⟩, hrest⟩ := keepsPresenting_succ h
    obtain ⟨t, hobs⟩ := ih (s := (pastEdge s).withPhase (.answering w r)) rfl (hrest _ rfl)
    have hobs' := observe_succ_of_observe (step_of_waiting hr hp) hobs
    rw [accepts_of_answering hp, delivers_of_waiting hp] at hobs'
    exact ⟨t, hobs'⟩

end

/-- Settles O43: one run for each phase. -/
theorem presentedCommandIsTaken : Obligations.PresentedCommandIsTaken := by
  unfold Obligations.PresentedCommandIsTaken
  intro s n cw hn hlen hedges
  have hpresents : keepsPresenting cw n s := ⟨hlen, hedges⟩
  rcases hp : s.phase with _ | _ | ⟨w, r⟩ <;> simp only [hp] at hn <;> subst hn
  · obtain ⟨t, hobs⟩ := observe_presenting_of_starting hp hpresents
    exact ⟨t, _, hobs, rfl, by rw [pending_eq_none_iff.2 (.inl hp)]; rfl⟩
  · obtain ⟨t, hobs⟩ := observe_presenting_of_ready hp hpresents
    exact ⟨t, _, hobs, rfl, by rw [pending_eq_none_iff.2 (.inr hp)]; rfl⟩
  · obtain ⟨t, hobs⟩ := observe_presenting_of_answering hp hpresents
    exact ⟨t, _, hobs, rfl, by rw [pending_of_answering hp]; rfl⟩

/-! ### A command held stable -/

/-- A host that keeps its promise shows, at the edge after one that did not take its command, the same command (R209). -/
theorem command_eq_of_keepsCommand {s t : State} (h : keepsCommand s t = true) (hr : (nextEdge s).pins.rst = false)
    (ha : s.accepts = none) (hs : (nextEdge s).pins.cmdValid = true) (ht : (nextEdge t).pins.cmdValid = true) :
    (nextEdge s).pins.command = (nextEdge t).pins.command := by
  simpa [keepsCommand, hr, ha, hs, ht] using h

theorem hostKeepsCommands_succ {k : Nat} {s t : State} (hstep : step s = .next t) :
    hostKeepsCommands (k + 1) s = (keepsCommand s t && hostKeepsCommands k t) := by
  simp only [hostKeepsCommands, hstep]

/-- At each of the next `k` edges the host presents a command. -/
def alwaysPresents (k : Nat) (s : State) : Prop :=
  k ≤ s.inputs.length ∧ ((s.inputs.take k).all fun e => e.pins.cmdValid) = true

theorem alwaysPresents_succ {k : Nat} {s : State} (h : alwaysPresents (k + 1) s) :
    (nextEdge s).pins.cmdValid = true ∧ ∀ t : State, t.inputs = s.inputs.tail → alwaysPresents k t := by
  obtain ⟨hlen, hall⟩ := h
  cases hin : s.inputs with
  | nil => simp [hin] at hlen
  | cons e es =>
    rw [hin, List.length_cons, Nat.add_le_add_iff_right] at hlen
    rw [hin, List.take_succ_cons, List.all_cons, Bool.and_eq_true] at hall
    exact ⟨by rw [nextEdge_of_inputs_cons hin, hall.1], fun t ht => by rw [alwaysPresents, ht]; exact ⟨hlen, hall.2⟩⟩

/-- The first command taken is the one shown at the first edge: until it is taken the host shows no other (R209). -/
theorem observe_first_command {k : Nat} {s : State} (hkeeps : hostKeepsCommands k s = true) (hf : s.resetFree k = true)
    (hpresents : alwaysPresents k s) :
    ∃ t tr, observe k s = some (t, tr) ∧ ∀ cw, tr.commands.head? = some cw → cw = (nextEdge s).pins.command := by
  induction k generalizing s with
  | zero => exact ⟨s, _, observe_zero s, nofun⟩
  | succ k ih =>
    obtain ⟨hr, hrest⟩ := resetFree_succ hf
    obtain ⟨hv, hpresents'⟩ := alwaysPresents_succ hpresents
    obtain ⟨t, hstep, hin⟩ := step_next s
    rw [hostKeepsCommands_succ hstep, Bool.and_eq_true] at hkeeps
    obtain ⟨hkeep, hkeeps'⟩ := hkeeps
    obtain ⟨u, tr, hobs, hfirst⟩ := ih hkeeps' (hrest t hin) (hpresents' t hin)
    refine ⟨u, _, observe_succ_of_observe hstep hobs, fun cw hcw => ?_⟩
    rcases ha : s.accepts with _ | cw'
    · rw [ha] at hcw
      cases k with
      | zero =>
        obtain ⟨-, rfl⟩ := Prod.mk.inj (Option.some.inj hobs)
        exact absurd hcw nofun
      | succ k =>
        obtain ⟨hv', -⟩ := alwaysPresents_succ (hpresents' t hin)
        rw [command_eq_of_keepsCommand hkeep hr ha hv hv']
        exact hfirst cw hcw
    · rw [ha] at hcw
      obtain rfl : cw' = cw := Option.some.inj hcw
      obtain ⟨-, -, -, hcommand⟩ := accepts_some ha
      exact hcommand

/-- Settles O44: `observe_first_command`. -/
theorem heldCommandIsTheOneTaken : Obligations.HeldCommandIsTheOneTaken := by
  unfold Obligations.HeldCommandIsTheOneTaken
  exact fun k s hkeeps hf hlen hall => observe_first_command hkeeps hf ⟨hlen, hall⟩

end Sys2Proof.Machine
end

section
/-!
The auxiliary slot and several instances (spec/10_state.md section 3, spec/60_exceptions.md section 5): a step goes the same way
whatever the slot holds, and steps of different instances do not meet.
-/

namespace Sys2Proof.Machine

/-! ### The auxiliary slot -/

/-- A step from another slot is the same step, up to the slot it leaves (R25). -/
theorem step_of_other_aux {s t : State} (h : step s = .next t) (a : AuxSlot) :
    ∃ b, step { s with aux := a } = .next { t with aux := b } := by
  rcases step_cases s with ⟨hr, hs⟩ |
    ⟨hr, ⟨hp, hs⟩ | ⟨hp, hv, hs⟩ | ⟨hp, hv, hs⟩ | ⟨n, r, hp, hs⟩ | ⟨r, hp, hv, hs⟩ | ⟨r, hp, hv, hs⟩⟩
  case inr.inr.inr.inl =>
    obtain rfl := Host.Outcome.next.inj (h.symm.trans (hs.trans (executeCommand_eq _ _)))
    exact ⟨a, (step_of_transfer (s := { s with aux := a }) hr hp hv).trans (executeCommand_eq _ _)⟩
  all_goals obtain rfl := Host.Outcome.next.inj (h.symm.trans hs)
  · exact ⟨_, step_of_reset (s := { s with aux := a }) hr⟩
  · exact ⟨a, step_of_starting (s := { s with aux := a }) hr hp⟩
  · exact ⟨a, step_of_idle (s := { s with aux := a }) hr hp hv⟩
  · exact ⟨a, step_of_waiting (s := { s with aux := a }) hr hp⟩
  · exact ⟨a, step_of_taken (s := { s with aux := a }) hr hp hv⟩
  · exact ⟨a, step_of_held (s := { s with aux := a }) hr hp hv⟩

/-- Two runs that differ in the slot alone transfer the same and differ in the slot alone at the end (R25). -/
theorem observe_of_other_aux (k : Nat) (s : State) (a : AuxSlot) :
    ∃ t tr b, observe k s = some (t, tr) ∧ observe k { s with aux := a } = some ({ t with aux := b }, tr) := by
  induction k generalizing s a with
  | zero => exact ⟨s, _, a, rfl, rfl⟩
  | succ k ih =>
    obtain ⟨t, hstep, -⟩ := step_next s
    obtain ⟨b, hstep'⟩ := step_of_other_aux hstep a
    obtain ⟨u, tr, c, hobs, hobs'⟩ := ih t b
    exact ⟨u, _, c, observe_succ_of_observe hstep hobs, observe_succ_of_observe hstep' hobs'⟩

/-- Settles O33: the two runs go edge by edge through states that differ in the slot alone. -/
theorem auxiliarySlotIsUnobservable : Obligations.AuxiliarySlotIsUnobservable := by
  unfold Obligations.AuxiliarySlotIsUnobservable
  intro k s a
  obtain ⟨t, tr, b, hobs, hobs'⟩ := observe_of_other_aux k s a
  exact ⟨t, _, tr, hobs, hobs', rfl, rfl⟩

/-! ### Several instances -/

/-- The state a step leaves; there always is one (R16). -/
def nextState (s : State) : State :=
  match step s with
  | .next t => t
  | .fault _ => s
  | .refused _ => s

theorem step_eq_next_nextState (s : State) : step s = .next (nextState s) := by
  obtain ⟨t, hstep, -⟩ := step_next s
  simp only [nextState, hstep]

/-- Stepping one of several instances changes its place in the list (R181). -/
theorem stepAt_eq (k : Nat) (sys : List State) : stepAt k sys = .next (sys.modify k nextState) := by
  rw [List.modify_eq_set_getElem?, stepAt]
  cases sys[k]? with
  | none => rfl
  | some s => simp only [step_eq_next_nextState]; rfl

/-- Settles O46: a step changes one place of the list. -/
theorem instancesAreIndependent : Obligations.InstancesAreIndependent := by
  unfold Obligations.InstancesAreIndependent
  refine ⟨fun sys k s hs => ⟨nextState s, _, step_eq_next_nextState s, stepAt_eq k sys, ?_, ?_, fun j hj => ?_⟩,
    fun sys j k hne => ⟨_, _, _, stepAt_eq j sys, stepAt_eq k _, stepAt_eq k sys, ?_⟩⟩
  · rw [List.getElem?_modify_eq, hs]
    rfl
  · exact List.length_modify ..
  · exact List.getElem?_modify_ne _ _ hj.symm
  · rw [stepAt_eq, List.modify_modify_ne _ _ _ hne]

end Sys2Proof.Machine
end

section
/-!
The invariants (spec/70_reset_and_hazards.md sections 1 and 5, spec/10_state.md sections 4 and 7): what holds after a reset and
what every step keeps.
-/

namespace Sys2Proof.Machine

/-- Settles O39: the fields of the state after reset. -/
theorem resetLeavesNothingInFlight : Obligations.ResetLeavesNothingInFlight := by
  unfold Obligations.ResetLeavesNothingInFlight
  exact fun g a l => ⟨rfl, rfl, rfl, rfl, rfl, rfl, rfl⟩

/-! ### The port -/

/-- The response to a command carries a value with status `OK` alone (R64, R65). -/
theorem answerTo_legal (cw : CommandWord) (g : GenState) : (answerTo cw g).legal = true := by
  rcases opcode_kinds cw with hop | hop | hop
  · rw [answerTo_of_opcode_zero hop]
    rfl
  · rw [answerTo_of_opcode_one hop]
    rfl
  · rw [answerTo_of_raising hop]
    rfl

/-- No command takes longer than the larger of the two latencies (R212). -/
theorem extraCycles_le (cw : CommandWord) (l : Latencies) : extraCycles cw l ≤ max l.initExtra l.nextExtra := by
  have hsucc := extraCycles_succ cw l
  unfold Latencies.latInit Latencies.latNext at hsucc
  split_ifs at hsucc <;> omega

theorem portLegal_of_answering {s : State} {n : Nat} {r : Response} (hp : s.phase = .answering n r) :
    s.portLegal = true ↔ r.legal = true ∧ n ≤ max s.lat.initExtra s.lat.nextExtra := by
  simp [State.portLegal, hp]

/-- Settles O47: a transfer puts a legal response within its latency in flight, and it only comes nearer. -/
theorem stepKeepsThePortLegal : Obligations.StepKeepsThePortLegal := by
  unfold Obligations.StepKeepsThePortLegal
  intro s hs
  rcases hr : (nextEdge s).pins.rst
  · obtain ⟨t, hstep, hrun⟩ := exists_runningStep hr
    refine ⟨t, hstep, ?_⟩
    cases hrun with
    | transfer cw => exact (portLegal_of_answering rfl).2 ⟨answerTo_legal cw s.gen, extraCycles_le cw s.lat⟩
    | idle => rfl
    | inFlight n m r phase nearer =>
      obtain ⟨hlegal, hnear⟩ := (portLegal_of_answering phase).1 hs
      exact (portLegal_of_answering rfl).2 ⟨hlegal, nearer.trans hnear⟩
    | given => rfl
  · exact ⟨_, step_of_reset hr, rfl⟩

/-- Settles O48: nothing is in flight after a reset. -/
theorem resetPortIsLegal : Obligations.ResetPortIsLegal := by
  unfold Obligations.ResetPortIsLegal
  exact ⟨fun g a l => rfl, rfl⟩

/-! ### Words that are not all zero -/

theorem healthy_iff (s : State) :
    s.healthy = true ↔
      s.gen.degenerate = false ∧ ∀ e ∈ s.inputs, e.pins.rst = true → e.sReset.degenerate = false := by
  simp [State.healthy, imp_iff_not_or]

/-- A reset edge met is one of those listed: past the end of the list there is none. -/
theorem nextEdge_mem_of_reset {s : State} (h : (nextEdge s).pins.rst = true) : nextEdge s ∈ s.inputs := by
  cases hin : s.inputs with
  | nil => simp [nextEdge, hin, Edge.ofPins, Pins.quiet] at h
  | cons e es => simp [nextEdge_of_inputs_cons hin]

/-- Settles O49: a reset is to words that are not all zero, and no command enters the all-zero state. -/
theorem stepKeepsTheStateHealthy : Obligations.StepKeepsTheStateHealthy := by
  unfold Obligations.StepKeepsTheStateHealthy
  intro s hs
  obtain ⟨hgen, hresets⟩ := (healthy_iff s).1 hs
  have hresets' : ∀ e ∈ s.inputs.tail, e.pins.rst = true → e.sReset.degenerate = false :=
    fun e he => hresets e (List.mem_of_mem_tail he)
  rcases hr : (nextEdge s).pins.rst
  · obtain ⟨t, hstep, hrun⟩ := exists_runningStep hr
    obtain ⟨-, -, hinputs⟩ := hrun.frame
    refine ⟨t, hstep, (healthy_iff t).2 ⟨?_, hinputs ▸ hresets'⟩⟩
    rw [hrun.gen_eq]
    exact wordsAfterAll_not_degenerate _ hgen
  · exact ⟨_, step_of_reset hr, (healthy_iff _).2 ⟨hresets _ (nextEdge_mem_of_reset hr) hr, hresets'⟩⟩

/-- Settles O50: after a reset no edges are listed. -/
theorem nonzeroResetIsHealthy : Obligations.NonzeroResetIsHealthy := by
  unfold Obligations.NonzeroResetIsHealthy
  exact fun g a l hg => (healthy_iff _).2 ⟨(degenerate_eq_false g).2 hg, by simp⟩

end Sys2Proof.Machine
end
